-- ==== Sys2Proof/Word.lean ====
section
/-! DEFINITION. The word types of the two generators and the one predicate on words that
00_scope.md writes as prose.

Every value of the spec is an unsigned integer of a stated width (R17), arithmetic on it is
modulo `2^W` (R18), and its shifts are logical (R19).  `BitVec` is exactly that: `+`, `-`, `*`
wrap, `>>>` fills with zeros and `<<<` drops what leaves the word, so the rules are written with
`BitVec`'s own operations and nothing is redefined here. -/

namespace Sys2Proof

/-- A word of `G32` (R8, `W = 32`). -/
abbrev Word32 := BitVec 32

/-- A word of `G64` (R8, `W = 64`). -/
abbrev Word64 := BitVec 64

/-- `odd(y)` of R19: bit 0 of `y` is set. -/
def odd {w : Nat} (y : BitVec w) : Bool := y.getLsbD 0

end Sys2Proof
end

