-- ==== Sys2Proof/Syntax.lean ====
section
/-! DEFINITION. What a host can say to the block: the command pair of 30_encoding.md R80, the
twelve commands of R83, and one line of the assembly language of R91 and R92. -/

namespace Sys2Proof

/-- The two generators (00_scope.md R3), which a command's `UNIT` field selects (R82). -/
inductive GenId where
  | g32
  | g64
deriving DecidableEq, Repr

/-- The six operations of R83, in the order of their `OP` codes. -/
inductive Op where
  | seed
  | keyclr
  | keypush
  | seedarr
  | next
  | stat
deriving DecidableEq, Repr

/-- The word width `W` of a generator (R8). -/
def GenId.width : GenId → Nat
  | .g32 => 32
  | .g64 => 64

/-- The state length `N` of a generator (R8). -/
def GenId.length : GenId → Nat
  | .g32 => 624
  | .g64 => 312

/-- Whether an operation takes an operand (R83's operand column). -/
def Op.takesOperand : Op → Bool
  | .seed | .keypush => true
  | .keyclr | .seedarr | .next | .stat => false

/-- The command pair `(CMD, DATA)` of R80: both words are always present. -/
structure Command where
  cmd  : BitVec 16
  data : BitVec 64
deriving DecidableEq, Repr

/-- The twelve legal commands, one constructor per row of the opcode table (R83).  An operand has
the width of the generator that takes it, which is all R84 and R85 admit, so every term of this
type is a legal command. -/
inductive Instr where
  | seed32 (v : Word32)
  | keyclr32
  | keypush32 (v : Word32)
  | seedarr32
  | next32
  | stat32
  | seed64 (v : Word64)
  | keyclr64
  | keypush64 (v : Word64)
  | seedarr64
  | next64
  | stat64
deriving DecidableEq, Repr

/-- The generator a command is addressed to. -/
def Instr.unit : Instr → GenId
  | .seed32 _ | .keyclr32 | .keypush32 _ | .seedarr32 | .next32 | .stat32 => .g32
  | .seed64 _ | .keyclr64 | .keypush64 _ | .seedarr64 | .next64 | .stat64 => .g64

/-- The operation a command asks for. -/
def Instr.op : Instr → Op
  | .seed32 _ | .seed64 _ => .seed
  | .keyclr32 | .keyclr64 => .keyclr
  | .keypush32 _ | .keypush64 _ => .keypush
  | .seedarr32 | .seedarr64 => .seedarr
  | .next32 | .next64 => .next
  | .stat32 | .stat64 => .stat

/-- Why a pair is illegal: the five refusals of `decode` in R88, in the order it tests them. -/
inductive Illegal where
  /-- `CMD[15:12]` is not zero. -/
  | reservedBits
  /-- `CMD[11:8]` names no generator. -/
  | reservedUnit
  /-- `CMD[7:0]` names no operation. -/
  | reservedOp
  /-- `DATA[63:32]` is not zero where the operand is 32 bits wide. -/
  | wideOperand
  /-- `DATA` is not zero where there is no operand. -/
  | unexpectedData
deriving DecidableEq, Repr

/-- One command line of the assembly language (R91): a mnemonic, which is an operation and a
generator, and the operand if one is written. -/
structure AsmLine where
  op      : Op
  unit    : GenId
  operand : Option Nat
deriving DecidableEq, Repr

/-- One source line: a command, or a pseudo-instruction of R92. -/
inductive Source where
  | line (l : AsmLine)
  | seedKey (u : GenId) (key : List Nat)
  | seedDef (u : GenId)
  | nextN (u : GenId) (n : Nat)
deriving DecidableEq, Repr

end Sys2Proof
end

