-- ==== Sys2Proof/WellFormed.lean ====
section
/-! DEFINITION. The checks the spec puts on what a host sends: on a command pair (R81 to R84) and
on an assembly line (R91, R92).  A term of `Instr` needs no check, since its operand types hold
exactly the values R84 and R85 admit.  The pair's checks are written on the numbers the fields
stand for and share nothing with the decoder, which a law compares with them. -/

namespace Sys2Proof

/-- `CMD[15:12]` is zero (R81). -/
def Command.reservedBitsClear (c : Command) : Bool := c.cmd.toNat / 4096 == 0

/-- `CMD[11:8]` is `0x0` or `0x1` (R82). -/
def Command.unitLegal (c : Command) : Bool := c.cmd.toNat / 256 % 16 ≤ 1

/-- `CMD[7:0]` lies in `0x01` to `0x06` (R83). -/
def Command.opLegal (c : Command) : Bool :=
  1 ≤ c.cmd.toNat % 256 && c.cmd.toNat % 256 ≤ 6

/-- The bits of `DATA` that R84 requires to be zero are zero. -/
def Command.operandBitsClear (c : Command) : Bool :=
  if c.cmd.toNat % 256 = 1 ∨ c.cmd.toNat % 256 = 3 then
    c.cmd.toNat / 256 % 16 ≠ 0 || c.data.toNat < 2 ^ 32
  else c.data.toNat == 0

/-- A legal pair: all four checks pass. -/
def Command.WellFormed (c : Command) : Bool :=
  c.reservedBitsClear && c.unitLegal && c.opLegal && c.operandBitsClear

/-- An operand is written exactly where the operation takes one (R91: "present only for `SEED` and
`KEYPUSH`"). -/
def AsmLine.operandPresent (l : AsmLine) : Bool := l.operand.isSome == l.op.takesOperand

/-- The operand "must lie in `[0, 2^W - 1]`" (R91). -/
def AsmLine.operandInRange (l : AsmLine) : Bool :=
  match l.operand with
  | none => true
  | some v => v < 2 ^ l.unit.width

/-- An assembly line that an assembler accepts. -/
def AsmLine.WellFormed (l : AsmLine) : Bool := l.operandPresent && l.operandInRange

/-- A source line that an assembler accepts: the operands of a pseudo-instruction are held to the
range of the commands it expands to, and `NEXTNw` needs `n >= 1` (R92). -/
def Source.WellFormed : Source → Bool
  | .line l => l.WellFormed
  | .seedKey u key => key.all (fun v => v < 2 ^ u.width)
  | .seedDef _ => true
  | .nextN _ n => 1 ≤ n

end Sys2Proof
end

