-- ==== Sys2Proof/Decode.lean ====
section
/-! DEFINITION. The decoder of 30_encoding.md R88, total on every `(CMD, DATA)` pair, the encoder,
and the opcode table they both answer to.

`decodeTableWord` reads a command from one number, `CMD` in bits 15..0 and `DATA` in bits 79..16
(DESIGN CHOICE, log 6, safe). -/

namespace Sys2Proof

/-! ### The fields of `CMD` (R81) -/

/-- `RSV`, `CMD[15:12]`. -/
def Command.rsvField (c : Command) : BitVec 4 := c.cmd.extractLsb' 12 4

/-- `UNIT`, `CMD[11:8]`. -/
def Command.unitField (c : Command) : BitVec 4 := c.cmd.extractLsb' 8 4

/-- `OP`, `CMD[7:0]`. -/
def Command.opField (c : Command) : BitVec 8 := c.cmd.extractLsb' 0 8

/-- The generator that `UNIT` selects, if any (R82). -/
def genOfField (u : BitVec 4) : Option GenId :=
  if u = 0x0#4 then some .g32
  else if u = 0x1#4 then some .g64
  else none

/-- The operation that `OP` selects, if any (R83). -/
def opOfField (o : BitVec 8) : Option Op :=
  if o = 0x01#8 then some .seed
  else if o = 0x02#8 then some .keyclr
  else if o = 0x03#8 then some .keypush
  else if o = 0x04#8 then some .seedarr
  else if o = 0x05#8 then some .next
  else if o = 0x06#8 then some .stat
  else none

/-! ### Operands (R84, R85) -/

/-- The operand of a `G32` command, `DATA[31:0]`. -/
def operand32 (d : BitVec 64) : Word32 := d.extractLsb' 0 32

/-- The operand of a `G64` command, `DATA[63:0]`. -/
def operand64 (d : BitVec 64) : Word64 := d

/-- `DATA[63:32]`, which a 32-bit operand leaves zero. -/
def upperData (d : BitVec 64) : BitVec 32 := d.extractLsb' 32 32

/-- The command that a legal unit, operation and `DATA` name (R83). -/
def instrOf (u : GenId) (o : Op) (d : BitVec 64) : Instr :=
  match u, o with
  | .g32, .seed => .seed32 (operand32 d)
  | .g32, .keyclr => .keyclr32
  | .g32, .keypush => .keypush32 (operand32 d)
  | .g32, .seedarr => .seedarr32
  | .g32, .next => .next32
  | .g32, .stat => .stat32
  | .g64, .seed => .seed64 (operand64 d)
  | .g64, .keyclr => .keyclr64
  | .g64, .keypush => .keypush64 (operand64 d)
  | .g64, .seedarr => .seedarr64
  | .g64, .next => .next64
  | .g64, .stat => .stat64

/-- The decoder of R88, its tests in R88's order; a pair that fails one is illegal, by name. -/
def decode (c : Command) : Except Illegal Instr :=
  if c.rsvField ≠ 0 then .error .reservedBits
  else
    match genOfField c.unitField with
    | none => .error .reservedUnit
    | some u =>
      match opOfField c.opField with
      | none => .error .reservedOp
      | some o =>
        if o.takesOperand = true ∧ u = .g32 ∧ upperData c.data ≠ 0 then .error .wideOperand
        else if o.takesOperand = false ∧ c.data ≠ 0 then .error .unexpectedData
        else .ok (instrOf u o c.data)

/-! ### The encoder -/

/-- The `UNIT` code of a generator (R82). -/
def unitCode : GenId → BitVec 4
  | .g32 => 0x0
  | .g64 => 0x1

/-- The `OP` code of an operation (R83). -/
def opCode : Op → BitVec 8
  | .seed => 0x01
  | .keyclr => 0x02
  | .keypush => 0x03
  | .seedarr => 0x04
  | .next => 0x05
  | .stat => 0x06

/-- The command word `{RSV, UNIT, OP}` with `RSV` zero (R81). -/
def commandWord (u : GenId) (o : Op) : BitVec 16 := 0#4 ++ (unitCode u ++ opCode o)

/-- The `DATA` word of a command: its operand, zero-extended, or zero (R84). -/
def dataWord : Instr → BitVec 64
  | .seed32 v | .keypush32 v => v.setWidth 64
  | .seed64 v | .keypush64 v => v
  | .keyclr32 | .seedarr32 | .next32 | .stat32 => 0
  | .keyclr64 | .seedarr64 | .next64 | .stat64 => 0

/-- The pair that asks for a command. -/
def encode (i : Instr) : Command := { cmd := commandWord i.unit i.op, data := dataWord i }

/-! ### The opcode table -/

/-- A row of the opcode table: the command it names, the mask and pattern of `CMD`, and the bits of
`DATA` that must be zero. -/
structure OpcodeRow where
  unit         : GenId
  op           : Op
  mask         : BitVec 16
  pattern      : BitVec 16
  dataZeroMask : BitVec 64
deriving DecidableEq, Repr

/-- The twelve rows of `opcode_table.json`, in its order. -/
def opcodeTable : List OpcodeRow :=
  [ ⟨.g32, .seed, 0xFFFF, 0x0001, 0xFFFFFFFF00000000⟩,
    ⟨.g32, .keyclr, 0xFFFF, 0x0002, 0xFFFFFFFFFFFFFFFF⟩,
    ⟨.g32, .keypush, 0xFFFF, 0x0003, 0xFFFFFFFF00000000⟩,
    ⟨.g32, .seedarr, 0xFFFF, 0x0004, 0xFFFFFFFFFFFFFFFF⟩,
    ⟨.g32, .next, 0xFFFF, 0x0005, 0xFFFFFFFFFFFFFFFF⟩,
    ⟨.g32, .stat, 0xFFFF, 0x0006, 0xFFFFFFFFFFFFFFFF⟩,
    ⟨.g64, .seed, 0xFFFF, 0x0101, 0x0000000000000000⟩,
    ⟨.g64, .keyclr, 0xFFFF, 0x0102, 0xFFFFFFFFFFFFFFFF⟩,
    ⟨.g64, .keypush, 0xFFFF, 0x0103, 0x0000000000000000⟩,
    ⟨.g64, .seedarr, 0xFFFF, 0x0104, 0xFFFFFFFFFFFFFFFF⟩,
    ⟨.g64, .next, 0xFFFF, 0x0105, 0xFFFFFFFFFFFFFFFF⟩,
    ⟨.g64, .stat, 0xFFFF, 0x0106, 0xFFFFFFFFFFFFFFFF⟩ ]

/-- A pair fits a row: `CMD` matches and no forbidden `DATA` bit is set. -/
def OpcodeRow.fits (r : OpcodeRow) (c : Command) : Bool :=
  c.cmd &&& r.mask == r.pattern && c.data &&& r.dataZeroMask == 0

/-! ### Commands written as one number -/

/-- The pair whose bits are the low `nbits` bits of `w`, every bit above them zero: `CMD` is bits
15..0 and `DATA` bits 79..16. -/
def commandOfWord (nbits w : Nat) : Command :=
  { cmd := BitVec.ofNat 16 (w % 2 ^ nbits), data := BitVec.ofNat 64 (w % 2 ^ nbits / 65536) }

/-- The command that the decoder reads from the bits of one number; none where it refuses. -/
def decodeTableWord (nbits w : Nat) : Option Instr :=
  match decode (commandOfWord nbits w) with
  | .ok i => some i
  | .error _ => none

end Sys2Proof
end

