-- ==== Sys2Proof/Config.lean ====
section
/-! DEFINITION. The one thing an implementation chooses: the key-buffer capacities (00_scope.md
R15, R16).

They are parameters, `1 <= KEY_CAP <= 65535`, and the spec fixes neither.  Each is a constant with
no body, kept as `KEY_CAP - 1` so that its type alone gives the bounds.  Only `State.reset` reads
them: a state carries its capacity as the length of its key buffer, so a statement about every
state is a statement about every capacity, and `State.resetWith` builds the block after reset for
any two capacities (log 7). -/

namespace Sys2Proof.Config

/-- `KEY_CAP32 - 1`; nothing is known of it but its range. -/
opaque keyCap32Less1 : Fin 65535

/-- `KEY_CAP64 - 1`; nothing is known of it but its range. -/
opaque keyCap64Less1 : Fin 65535

/-- `KEY_CAP32` (R15). -/
def keyCap32 : Nat := keyCap32Less1.val + 1

/-- `KEY_CAP64` (R15). -/
def keyCap64 : Nat := keyCap64Less1.val + 1

end Sys2Proof.Config
end

