-- ==== Sys2Proof/Machine/State.lean ====
section
/-! DEFINITION. The state of the block, as 10_state.md gives it, with the host's side of the
command port beside it, and the reasons a step can stop. -/

namespace Sys2Proof.Machine

/-- The state of one generator (R30), at word width `w`, state length `n` and index width `iw`.
`KEY_CAP`, a parameter of the block (R15), is the length of the key buffer. -/
structure Gen (w n iw : Nat) where
  /-- `MT_W`, the state array (R31). -/
  mt     : Vector (BitVec w) n
  /-- `IDX_W`, the position of the next word to emit (R32). -/
  idx    : BitVec iw
  /-- `SEEDED_W` (R34). -/
  seeded : Bool
  /-- `ERR_W`, the sticky record of the first error since reset (R36). -/
  err    : BitVec 4
  /-- `KEY_W`, the key buffer, `KEY_CAP_W` words long (R37). -/
  key    : List (BitVec w)
  /-- `KLEN_W`, how many words of the key buffer are in use (R38). -/
  klen   : BitVec 16
deriving DecidableEq, Repr

/-- `G32`'s state: 624 words of 32 bits and a 10-bit index (R8, R32). -/
abbrev Gen32 := Gen 32 624 10

/-- `G64`'s state: 312 words of 64 bits and a 9-bit index (R8, R32). -/
abbrev Gen64 := Gen 64 312 9

/-- A response `(ERRF, CODE, RDATA)` (R80). -/
structure Response where
  errf  : Bool
  code  : BitVec 4
  rdata : BitVec 64
deriving DecidableEq, Repr

/-- The four errors of R201.  An error is a response and a record, not a stop (R200). -/
inductive ErrorKind where
  | invalidInput
  | invalidState
  | illegalCommand
  | keyOverflow
deriving DecidableEq, Repr

/-- What the host can do to the block (R242): assert reset, or send a command pair. -/
inductive HostEvent where
  | reset
  | command (c : Command)
deriving DecidableEq, Repr

/-- The block, with the host's side of its port: what the host has yet to send, in the order it
will send it, and the responses it has got, the latest first (R241).  The two lists are the model's
own (DESIGN CHOICE, logs 4 and 8, safe): the spec gives the block no queue and no log. -/
structure State where
  g32       : Gen32
  g64       : Gen64
  pending   : List HostEvent
  responses : List Response
deriving DecidableEq, Repr

/-- The reasons a command can have no next state.  Both belong to states that no run reaches, and
both are safe: a state that meets `Safety.BlockInv` never stops. -/
inductive Fault where
  /-- Raised by `NEXT` on a seeded generator whose index exceeds `N`.  No rule says what happens
  there (R33), and 93_implementation_defined.md U10 treats it as stuck.  Safe. -/
  | indexBeyondBatch
  /-- Raised by `KEYPUSH` and `SEEDARR` when the key length exceeds the key buffer.  R61 says no
  such access occurs and gives it no outcome.  Safe. -/
  | keyLengthBeyondBuffer
deriving DecidableEq, Repr

/-- The reasons the model can refuse a command.  No arm of `exec` refuses. -/
inductive Refusal where
  /-- Raised by an arm of `exec` that has no meaning yet; there is none.  Safe. -/
  | notModelled (mnemonic : String)
deriving DecidableEq, Repr

/-- The three outcomes of a step of this machine. -/
abbrev Outcome := Host.Outcome State Fault Refusal

/-- How a command leaves its own generator: done with a result word, an error raised, or stuck. -/
inductive CmdResult (w n iw : Nat) where
  | done (g : Gen w n iw) (rdata : BitVec 64)
  | raised (g : Gen w n iw) (e : ErrorKind)
  | stuck (f : Fault)
deriving DecidableEq, Repr

/-- A generator after reset, with a key buffer of `cap` words (R42).  `SEEDED`, `ERR` and `KLEN`
are the spec's; it leaves the index, the array and the key words unspecified, and they are zero
here.  DESIGN CHOICE (log 1), unsafe as a value, and no command can observe it (R43). -/
def Gen.reset {w n iw : Nat} (cap : Nat) : Gen w n iw :=
  { mt := Vector.replicate n 0, idx := 0, seeded := false, err := 0,
    key := List.replicate cap 0, klen := 0 }

/-- The block after reset with the key-buffer capacities `cap32` and `cap64` (R15, R230). -/
def State.resetWith (cap32 cap64 : Nat) : State :=
  { g32 := Gen.reset cap32, g64 := Gen.reset cap64, pending := [], responses := [] }

/-- The machine right after reset (R42, R230, R231), at the capacities the implementation chose. -/
def State.reset : State := State.resetWith Config.keyCap32 Config.keyCap64

end Sys2Proof.Machine
end

