-- ==== Sys2Proof/Machine/Flags.lean ====
section
/-! DEFINITION. The status of a generator: the error codes (60_exceptions.md R201), the sticky error
record (10_state.md R36) and the `STATUS_W` view (R39).  The block has no other flags (R44). -/

namespace Sys2Proof.Machine

/-- The code of an error (R201); `0` is success and 5 to 15 are never produced. -/
def errorCode : ErrorKind → BitVec 4
  | .invalidInput => 1
  | .invalidState => 2
  | .illegalCommand => 3
  | .keyOverflow => 4

/-- `if ERR_u = 0: ERR_u <- code(E)` (R206): only the first error since reset is kept (R36). -/
def recordError {w n iw : Nat} (e : ErrorKind) (g : Gen w n iw) : Gen w n iw :=
  if g.err = 0 then { g with err := errorCode e } else g

/-- The `IDXV` field: the index while seeded, `0` while not (R39). -/
def indexView {w n iw : Nat} (g : Gen w n iw) : BitVec 10 :=
  if g.seeded then g.idx.setWidth 10 else 0

/-- `STATUS_W`, its fields and zero gaps from bit 63 down (R39). -/
def statusWord {w n iw : Nat} (g : Gen w n iw) : BitVec 64 :=
  0#16 ++ (g.klen ++ (0#8 ++ (g.err ++ (0#3 ++ (BitVec.ofBool g.seeded ++
    (0#6 ++ indexView g))))))

end Sys2Proof.Machine
end

