-- ==== Sys2Proof/Machine/Operands.lean ====
section
/-! DEFINITION. How a result becomes a response (30_encoding.md R86, R87).  Operands are assembled by
the decoder (`operand32`, `operand64` in Sys2Proof/Decode.lean, R85): a command has no other operand
form (R94). -/

namespace Sys2Proof.Machine

/-- `RDATA` of a `W`-bit output: zero-extended, never sign-extended (R86). -/
def resultWord {w : Nat} (y : BitVec w) : BitVec 64 := y.setWidth 64

/-- The response of a command that succeeds with result word `d` (R86, R87). -/
def successResponse (d : BitVec 64) : Response := { errf := false, code := 0, rdata := d }

/-- The response of a command that raises `e`: `(1, code(e), 0)` (R206). -/
def errorResponse (e : ErrorKind) : Response := { errf := true, code := errorCode e, rdata := 0 }

end Sys2Proof.Machine
end

