-- ==== Sys2Proof/Machine/Ops.lean ====
section
/-! DEFINITION. The operations the commands share: reading and writing the state array, the loop of
the pseudocode, ending a command (with a result, or by raising an error), the host's events, and
reset.

The block has no trap entry and no return from one (60_exceptions.md R210): raising an error is the
whole of its exception mechanism, and after it nothing has to be returned from (R209). -/

namespace Sys2Proof.Machine

/-! ### The internal storages (20_memory.md R60, R61) -/

/-- `MT_W[k]`.  Every index the rules use lies below `n` (R61); a read elsewhere, which no command
makes, gives zero.  DESIGN CHOICE (log 3), safe. -/
def readWord {w n : Nat} (mt : Vector (BitVec w) n) (k : Nat) : BitVec w :=
  if h : k < n then mt[k] else 0

/-- `MT_W[k] <- v`.  A write past the array, which no command makes (R61), changes nothing.
DESIGN CHOICE (log 3), safe. -/
def writeWord {w n : Nat} (mt : Vector (BitVec w) n) (k : Nat) (v : BitVec w) :
    Vector (BitVec w) n :=
  if h : k < n then mt.set k v else mt

/-- `KEY_W[j]` (R37). -/
def keyWord {w : Nat} (key : List (BitVec w)) (j : Nat) : BitVec w := key.getD j 0

/-- `for k in [a, a + steps)` of R21: the body runs at `a`, `a + 1`, and so on, in ascending order,
each on what the one before it left. -/
def forRange {α : Type} (a : Nat) (body : Nat → α → α) : Nat → α → α
  | 0, x => x
  | steps + 1, x => body (a + steps) (forRange a body steps x)

/-- A loop whose body carries its own indices: `body`, `steps` times. -/
def repeatStep {α : Type} (body : α → α) : Nat → α → α
  | 0, x => x
  | steps + 1, x => body (repeatStep body steps x)

/-! ### Ending a command -/

/-- `raise E` on a generator (R206): the response it gives and the record it leaves.  Whatever the
raising rule wrote before it is already in `g`. -/
def raiseError {w n iw : Nat} (e : ErrorKind) (g : Gen w n iw) : Gen w n iw × Response :=
  (recordError e g, errorResponse e)

/-- The end of a `G32` command: its generator and its response, or a stop. -/
def finish32 (r : CmdResult 32 624 10) (s : State) : Outcome :=
  match r with
  | .done g d => .next { s with g32 := g, responses := successResponse d :: s.responses }
  | .raised g e =>
    .next { s with g32 := (raiseError e g).1, responses := (raiseError e g).2 :: s.responses }
  | .stuck f => .fault f

/-- The end of a `G64` command: its generator and its response, or a stop. -/
def finish64 (r : CmdResult 64 312 9) (s : State) : Outcome :=
  match r with
  | .done g d => .next { s with g64 := g, responses := successResponse d :: s.responses }
  | .raised g e =>
    .next { s with g64 := (raiseError e g).1, responses := (raiseError e g).2 :: s.responses }
  | .stuck f => .fault f

/-- An illegal pair raises ILLEGAL_COMMAND (R204): recorded by the generator that `UNIT` names, and
by none where `UNIT` is reserved.  `RSV` does not matter here. -/
def raiseIllegal (c : Command) (s : State) : State :=
  match genOfField c.unitField with
  | some .g32 =>
    { s with g32 := (raiseError .illegalCommand s.g32).1,
             responses := (raiseError .illegalCommand s.g32).2 :: s.responses }
  | some .g64 =>
    { s with g64 := (raiseError .illegalCommand s.g64).1,
             responses := (raiseError .illegalCommand s.g64).2 :: s.responses }
  | none => { s with responses := errorResponse .illegalCommand :: s.responses }

/-! ### The host's events (70_reset_and_hazards.md R242) -/

/-- The event the host sends next, and the state with it taken. -/
def takeEvent (s : State) : Option (HostEvent × State) :=
  match s.pending with
  | [] => none
  | e :: rest => some (e, { s with pending := rest })

/-- The state in which the host sends `e` next. -/
def offerEvent (e : HostEvent) (s : State) : State := { s with pending := e :: s.pending }

/-- The reset event (R230): both generators take their reset values together.  The capacities are
the block's and stay, and reset has no response (R242).  DESIGN CHOICE (log 2), unsafe in the zeros of
log 1. -/
def resetBlock (s : State) : State :=
  { s with g32 := Gen.reset s.g32.key.length, g64 := Gen.reset s.g64.key.length }

end Sys2Proof.Machine
end

