-- ==== Sys2Proof/Machine/Params.lean ====
section
/-! DEFINITION. The constants of the two generators (00_scope.md R9 to R14).  The source asks for "a
single generic algorithm parameterized by width, N, and the constant set" (40_seeding_pipelines.md);
this is that constant set, and R118 is its two instances. -/

namespace Sys2Proof.Machine

/-- The constants of a generator of `n` words of `w` bits. -/
structure Params (w n : Nat) where
  /-- `M`, the recurrence offset. -/
  m          : Nat
  matrixA    : BitVec w
  upperMask  : BitVec w
  lowerMask  : BitVec w
  /-- Step 1 of tempering: right shift and the mask that follows it. -/
  shiftU     : Nat
  maskD      : BitVec w
  /-- Step 2 of tempering: left shift and mask `B`. -/
  shiftS     : Nat
  maskB      : BitVec w
  /-- Step 3 of tempering: left shift and mask `C`. -/
  shiftT     : Nat
  maskC      : BitVec w
  /-- Step 4 of tempering: right shift, unmasked. -/
  shiftL     : Nat
  /-- `F`, the seeding multiplier. -/
  f          : BitVec w
  /-- `SH`, the seeding right-shift. -/
  sh         : Nat
  /-- `A1`, the multiplier of the key phase. -/
  a1         : BitVec w
  /-- `A2`, the multiplier of the second phase. -/
  a2         : BitVec w
  /-- `BASE`, the seed of the baseline. -/
  base       : BitVec w
  /-- `TOP`, the finalisation word. -/
  top        : BitVec w

/-- `G32`'s constants (R9, R10, R11).  R10 leaves step 1 of the tempering unmasked; its mask here is
all ones, which is the same (95_test_vectors.md §0). -/
def params32 : Params 32 624 where
  m         := 397
  matrixA   := 0x9908B0DF
  upperMask := 0x80000000
  lowerMask := 0x7FFFFFFF
  shiftU    := 11
  maskD     := 0xFFFFFFFF
  shiftS    := 7
  maskB     := 0x9D2C5680
  shiftT    := 15
  maskC     := 0xEFC60000
  shiftL    := 18
  f         := 1812433253
  sh        := 30
  a1        := 1664525
  a2        := 1566083941
  base      := 19650218
  top       := 0x80000000

/-- `G64`'s constants (R12, R13, R14), with the canonical tempering and the seeding shift 62 that
90_conflicts.md C1 and C2 choose. -/
def params64 : Params 64 312 where
  m         := 156
  matrixA   := 0xB5026F5AA96619E9
  upperMask := 0xFFFFFFFF80000000
  lowerMask := 0x000000007FFFFFFF
  shiftU    := 29
  maskD     := 0x5555555555555555
  shiftS    := 17
  maskB     := 0x71D67FFFEDA60000
  shiftT    := 37
  maskC     := 0xFFF7EEE000000000
  shiftL    := 43
  f         := 6364136223846793005
  sh        := 62
  a1        := 3935559000370003845
  a2        := 2862933555777941757
  base      := 19650218
  top       := 0x8000000000000000

end Sys2Proof.Machine
end

