-- ==== Sys2Proof/Machine/Seeding.lean ====
section
/-! DEFINITION. The seeding datapath of 40_seeding_pipelines.md, written once over the width and the
constant set: the three pipelines (R110, R112, R113), the scalar fill (R111) and the array weave
(R114).

The procedures are irreducible, so that no unifier unfolds their hundreds of steps by accident;
`unfold` and the kernel open them as usual. -/

namespace Sys2Proof.Machine

/-! ### Pipelines -/

/-- The XOR-shift stage that the three pipelines share: `p ^ (p >> SH)`. -/
def xorShift {w n : Nat} (c : Params w n) (p : BitVec w) : BitVec w := p ^^^ (p >>> c.sh)

/-- `SEEDMUL_W(p, i)` (R110). -/
def seedMul {w n : Nat} (c : Params w n) (p : BitVec w) (i : Nat) : BitVec w :=
  c.f * xorShift c p + BitVec.ofNat w i

/-- `MIX1_W(c, p, kv, j)` (R112), `cur` being the current word. -/
def mix1 {w n : Nat} (c : Params w n) (cur p kv : BitVec w) (j : Nat) : BitVec w :=
  (cur ^^^ xorShift c p * c.a1) + kv + BitVec.ofNat w j

/-- `MIX2_W(c, p, i)` (R113), `cur` being the current word. -/
def mix2 {w n : Nat} (c : Params w n) (cur p : BitVec w) (i : Nat) : BitVec w :=
  (cur ^^^ xorShift c p * c.a2) - BitVec.ofNat w i

/-! ### The scalar fill -/

/-- One step of the loop of R111. -/
def fillStep {w n : Nat} (c : Params w n) (i : Nat) (mt : Vector (BitVec w) n) :
    Vector (BitVec w) n :=
  writeWord mt i (seedMul c (readWord mt (i - 1)) i)

/-- `FILL_W(s)` (R111), on whatever the array held before. -/
@[irreducible] def fill {w n : Nat} (c : Params w n) (s : BitVec w) (mt : Vector (BitVec w) n) :
    Vector (BitVec w) n :=
  forRange 1 (fillStep c) (n - 1) (writeWord mt 0 s)

/-! ### The array weave -/

/-- The variables of R114's loops: the array and the two index pointers. -/
structure WeaveVars (w n : Nat) where
  mt : Vector (BitVec w) n
  i  : Nat
  j  : Nat
deriving DecidableEq, Repr

/-- `i <- i + 1`, and at `N` the wrap: `MT_W[0] <- MT_W[N-1]; i <- 1` (R114). -/
def advanceI {w n : Nat} (v : WeaveVars w n) : WeaveVars w n :=
  if v.i + 1 = n then { v with mt := writeWord v.mt 0 (readWord v.mt (n - 1)), i := 1 }
  else { v with i := v.i + 1 }

/-- `j <- j + 1`, and at `L` the wrap: `j <- 0` (R114). -/
def advanceJ {w n : Nat} (len : Nat) (v : WeaveVars w n) : WeaveVars w n :=
  if v.j + 1 = len then { v with j := 0 } else { v with j := v.j + 1 }

/-- One step of the key phase of R114. -/
def keyStep {w n : Nat} (c : Params w n) (key : List (BitVec w)) (len : Nat)
    (v : WeaveVars w n) : WeaveVars w n :=
  advanceJ len (advanceI { v with
    mt := writeWord v.mt v.i
      (mix1 c (readWord v.mt v.i) (readWord v.mt (v.i - 1)) (keyWord key v.j) v.j) })

/-- One step of the second phase of R114. -/
def secondStep {w n : Nat} (c : Params w n) (v : WeaveVars w n) : WeaveVars w n :=
  advanceI { v with
    mt := writeWord v.mt v.i (mix2 c (readWord v.mt v.i) (readWord v.mt (v.i - 1)) v.i) }

/-- The variables where R114's key phase starts: the baseline, `i = 1`, `j = 0`. -/
def weaveStart {w n : Nat} (c : Params w n) (mt : Vector (BitVec w) n) : WeaveVars w n :=
  { mt := fill c c.base mt, i := 1, j := 0 }

/-- The key phase of R114: `max(N, L)` steps. -/
@[irreducible] def keyPhase {w n : Nat} (c : Params w n) (key : List (BitVec w)) (len : Nat)
    (v : WeaveVars w n) : WeaveVars w n :=
  repeatStep (keyStep c key len) (max n len) v

/-- The second phase of R114: `N - 1` steps, `i` going on from the key phase. -/
@[irreducible] def secondPhase {w n : Nat} (c : Params w n) (v : WeaveVars w n) : WeaveVars w n :=
  repeatStep (secondStep c) (n - 1) v

/-- `WEAVE_W(L)` (R114), on whatever the array held before. -/
@[irreducible] def weave {w n : Nat} (c : Params w n) (key : List (BitVec w)) (len : Nat)
    (mt : Vector (BitVec w) n) : Vector (BitVec w) n :=
  writeWord (secondPhase c (keyPhase c key len (weaveStart c mt))).mt 0 c.top

end Sys2Proof.Machine
end

