-- ==== Sys2Proof/Machine/Generator.lean ====
section
/-! DEFINITION. What 41_mt32_unit.md and 42_mt64_unit.md say alike of both generators, written once
over the width and the constant set: the regeneration (R140, R170), the tempering (R142, R172) and
the six operations (R144 to R149, R174 to R179) on one generator. -/

namespace Sys2Proof.Machine

/-! ### Regeneration -/

/-- The new word of one step of the twist: `y` joins the upper bits of `MT[k]` with the lower bits of
`MT[k+1]`, and the word `M` places on is mixed with it. -/
def twistWord {w n : Nat} (c : Params w n) (cur next far : BitVec w) : BitVec w :=
  let y := (cur &&& c.upperMask) ||| (next &&& c.lowerMask)
  far ^^^ (y >>> 1) ^^^ (if odd y then c.matrixA else 0)

/-- One step of the loop of R140 and R170, in place (R141, R171). -/
def twistStep {w n : Nat} (c : Params w n) (k : Nat) (mt : Vector (BitVec w) n) :
    Vector (BitVec w) n :=
  writeWord mt k
    (twistWord c (readWord mt k) (readWord mt ((k + 1) % n)) (readWord mt ((k + c.m) % n)))

/-- `TWIST_W()` (R140, R170): `k` from `0` to `N - 1`. -/
@[irreducible] def twist {w n : Nat} (c : Params w n) (mt : Vector (BitVec w) n) : Vector (BitVec w) n :=
  forRange 0 (twistStep c) n mt

/-! ### Tempering -/

/-- A tempering step that shifts right: `y ^ ((y >> s) & mask)`. -/
def temperRight {w : Nat} (s : Nat) (mask y : BitVec w) : BitVec w := y ^^^ ((y >>> s) &&& mask)

/-- A tempering step that shifts left: `y ^ ((y << s) & mask)`. -/
def temperLeft {w : Nat} (s : Nat) (mask y : BitVec w) : BitVec w := y ^^^ ((y <<< s) &&& mask)

/-- `TEMPER_W(y)` (R142, R172): the four steps in order. -/
def temper {w n : Nat} (c : Params w n) (y : BitVec w) : BitVec w :=
  temperRight c.shiftL (BitVec.allOnes w)
    (temperLeft c.shiftT c.maskC
      (temperLeft c.shiftS c.maskB
        (temperRight c.shiftU c.maskD y)))

/-! ### The six operations on one generator -/

/-- A generator whose array was just seeded: `IDX <- N`, `SEEDED <- 1`. -/
def seededWith {w n iw : Nat} (mt : Vector (BitVec w) n) (g : Gen w n iw) : Gen w n iw :=
  { g with mt := mt, idx := BitVec.ofNat iw n, seeded := true }

/-- `SEED` (R144, R174). -/
def genSeed {w n iw : Nat} (c : Params w n) (v : BitVec w) (g : Gen w n iw) : CmdResult w n iw :=
  .done (seededWith (fill c v g.mt) g) 0

/-- `KEYCLR` (R145, R175). -/
def genKeyclr {w n iw : Nat} (g : Gen w n iw) : CmdResult w n iw := .done { g with klen := 0 } 0

/-- `KEYPUSH` (R146, R176).  A key length beyond the buffer, which no run reaches, is stuck (R61). -/
def genKeypush {w n iw : Nat} (v : BitVec w) (g : Gen w n iw) : CmdResult w n iw :=
  if g.klen.toNat = g.key.length then .raised g .keyOverflow
  else if g.klen.toNat < g.key.length then
    .done { g with key := g.key.set g.klen.toNat v, klen := g.klen + 1 } 0
  else .stuck .keyLengthBeyondBuffer

/-- `SEEDARR` (R147, R177).  The empty key is found before anything is written, and leaves the
generator unseeded (R202).  A key length beyond the buffer, which no run reaches, is stuck (R61). -/
def genSeedarr {w n iw : Nat} (c : Params w n) (g : Gen w n iw) : CmdResult w n iw :=
  if g.klen = 0 then .raised { g with seeded := false } .invalidInput
  else if g.klen.toNat ≤ g.key.length then
    .done (seededWith (weave c g.key g.klen.toNat g.mt) g) 0
  else .stuck .keyLengthBeyondBuffer

/-- The batch `NEXT` emits from: where the index has reached `N`, `TWIST` and `IDX <- 0` (R148,
R178). -/
def freshBatch {w n iw : Nat} (c : Params w n) (g : Gen w n iw) : Gen w n iw :=
  if g.idx.toNat = n then { g with mt := twist c g.mt, idx := 0 } else g

/-- `y <- TEMPER(MT[IDX]); IDX <- IDX + 1` and the response (R148, R178). -/
def emitWord {w n iw : Nat} (c : Params w n) (g : Gen w n iw) : CmdResult w n iw :=
  .done { g with idx := g.idx + 1 } (resultWord (temper c (readWord g.mt g.idx.toNat)))

/-- `NEXT` (R148, R178).  An index beyond `N`, which no run reaches, is stuck (R33, U10). -/
def genNext {w n iw : Nat} (c : Params w n) (g : Gen w n iw) : CmdResult w n iw :=
  if g.seeded = false then .raised g .invalidState
  else if g.idx.toNat ≤ n then emitWord c (freshBatch c g)
  else .stuck .indexBeyondBatch

/-- `STAT` (R149, R179). -/
def genStat {w n iw : Nat} (g : Gen w n iw) : CmdResult w n iw := .done g (statusWord g)

end Sys2Proof.Machine
end

