-- ==== Sys2Proof/Machine/Mt32.lean ====
section
/-! DEFINITION. The six commands of `G32` (41_mt32_unit.md), one definition each: the operation of
Sys2Proof/Machine/Generator.lean at `G32`'s constants, and the end of the command. -/

namespace Sys2Proof.Machine

/-- `SEED32` (R144). -/
def execSeed32 (v : Word32) (s : State) : Outcome := finish32 (genSeed params32 v s.g32) s

/-- `KEYCLR32` (R145). -/
def execKeyclr32 (s : State) : Outcome := finish32 (genKeyclr s.g32) s

/-- `KEYPUSH32` (R146). -/
def execKeypush32 (v : Word32) (s : State) : Outcome := finish32 (genKeypush v s.g32) s

/-- `SEEDARR32` (R147). -/
def execSeedarr32 (s : State) : Outcome := finish32 (genSeedarr params32 s.g32) s

/-- `NEXT32` (R148). -/
def execNext32 (s : State) : Outcome := finish32 (genNext params32 s.g32) s

/-- `STAT32` (R149). -/
def execStat32 (s : State) : Outcome := finish32 (genStat s.g32) s

end Sys2Proof.Machine
end

