-- ==== Sys2Proof/Machine/Mt64.lean ====
section
/-! DEFINITION. The six commands of `G64` (42_mt64_unit.md), one definition each: the operation of
Sys2Proof/Machine/Generator.lean at `G64`'s constants, and the end of the command. -/

namespace Sys2Proof.Machine

/-- `SEED64` (R174). -/
def execSeed64 (v : Word64) (s : State) : Outcome := finish64 (genSeed params64 v s.g64) s

/-- `KEYCLR64` (R175). -/
def execKeyclr64 (s : State) : Outcome := finish64 (genKeyclr s.g64) s

/-- `KEYPUSH64` (R176). -/
def execKeypush64 (v : Word64) (s : State) : Outcome := finish64 (genKeypush v s.g64) s

/-- `SEEDARR64` (R177). -/
def execSeedarr64 (s : State) : Outcome := finish64 (genSeedarr params64 s.g64) s

/-- `NEXT64` (R178). -/
def execNext64 (s : State) : Outcome := finish64 (genNext params64 s.g64) s

/-- `STAT64` (R179). -/
def execStat64 (s : State) : Outcome := finish64 (genStat s.g64) s

end Sys2Proof.Machine
end

