-- ==== Sys2Proof/Machine/Dispatch.lean ====
section
/-! DEFINITION. One arm per command (30_encoding.md R83). -/

namespace Sys2Proof.Machine

def exec (i : Instr) (s : State) : Host.Outcome State Fault Refusal :=
  match i with
  -- 41_mt32_unit.md
  | .seed32 v => Sys2Proof.Machine.execSeed32 v s
  | .keyclr32 => Sys2Proof.Machine.execKeyclr32 s
  | .keypush32 v => Sys2Proof.Machine.execKeypush32 v s
  | .seedarr32 => Sys2Proof.Machine.execSeedarr32 s
  | .next32 => Sys2Proof.Machine.execNext32 s
  | .stat32 => Sys2Proof.Machine.execStat32 s
  -- 42_mt64_unit.md
  | .seed64 v => Sys2Proof.Machine.execSeed64 v s
  | .keyclr64 => Sys2Proof.Machine.execKeyclr64 s
  | .keypush64 v => Sys2Proof.Machine.execKeypush64 v s
  | .seedarr64 => Sys2Proof.Machine.execSeedarr64 s
  | .next64 => Sys2Proof.Machine.execNext64 s
  | .stat64 => Sys2Proof.Machine.execStat64 s

end Sys2Proof.Machine
end

