-- ==== Sys2Proof/Machine/Step.lean ====
section
/-! DEFINITION. One step of the block: it takes the host's next event and does all of it, since every
command is atomic (20_memory.md R65) and commands run one at a time in the order they are issued
(R67). -/

namespace Sys2Proof.Machine

/-- One step.  With no event to take the block is idle, and idle loses no state
(60_exceptions.md R216; DEDUCED, log 9, safe). -/
def step (s : State) : Host.Outcome State Fault Refusal :=
  match takeEvent s with
  | none => .next s
  | some (.reset, s') => .next (resetBlock s')
  | some (.command c, s') =>
    match decode c with
    | .ok i => exec i s'
    | .error _ => .next (raiseIllegal c s')

/-- `s` with the command that `nbits` and `w` spell (`commandOfWord`) sent next.  The block fetches
nothing (R71): a command arrives from the host, so this stands for the host sending it. -/
def State.withFetchWord (s : State) (nbits w : Nat) : State :=
  offerEvent (.command (commandOfWord nbits w)) s

end Sys2Proof.Machine
end

