-- ==== Sys2Proof/Machine/Assembler.lean ====
section
/-! DEFINITION. The assembler of 30_encoding.md R91 and R92: from one command line to its pair, from
a pseudo-instruction to the lines it stands for, and from a program's text to its pairs.  Text is a
list of characters. -/

namespace Sys2Proof.Machine

/-! ### Lines and pseudo-instructions -/

/-- The pair a line assembles to: `DATA = zext_64(operand)`, or `0` without one; none where the
assembler rejects the line, which it does rather than truncate an operand (R91). -/
def assembleLine (l : AsmLine) : Option Command :=
  if l.WellFormed then
    some { cmd := commandWord l.unit l.op, data := BitVec.ofNat 64 (l.operand.getD 0) }
  else none

/-- The lines a source line stands for, in order (R92). -/
def expandSource : Source → List AsmLine
  | .line l => [l]
  | .seedKey u key =>
    ⟨.keyclr, u, none⟩ :: (key.map (fun k => ⟨.keypush, u, some k⟩) ++ [⟨.seedarr, u, none⟩])
  | .seedDef u => [⟨.seed, u, some 5489⟩]
  | .nextN u n => List.replicate n ⟨.next, u, none⟩

/-- All of a list's values, or none where one is missing. -/
def allSome {α : Type} : List (Option α) → Option (List α)
  | [] => some []
  | none :: _ => none
  | some x :: rest => (allSome rest).map (x :: ·)

/-- The pairs a source line assembles to (R91, R92). -/
def assembleSource (s : Source) : Option (List Command) :=
  if s.WellFormed then allSome ((expandSource s).map assembleLine) else none

/-! ### Text (R91) -/

/-- A character that separates words.  DESIGN CHOICE (log 5): R91 names none. -/
def isBlank (c : Char) : Bool := c == ' ' || c == '\t' || c == '\r'

/-- A text without the blanks at its two ends. -/
def trimBlanks (t : List Char) : List Char :=
  ((t.dropWhile isBlank).reverse.dropWhile isBlank).reverse

/-- The pieces of a text between the occurrences of `sep`. -/
def splitAtChar (sep : Char) : List Char → List (List Char)
  | [] => [[]]
  | c :: rest =>
    if c = sep then [] :: splitAtChar sep rest
    else
      match splitAtChar sep rest with
      | [] => [[c]]
      | piece :: more => (c :: piece) :: more

/-- The value of a digit in the given base. -/
def digitValue (base : Nat) (c : Char) : Option Nat :=
  let v :=
    if '0' ≤ c ∧ c ≤ '9' then c.toNat - 48
    else if 'a' ≤ c ∧ c ≤ 'f' then c.toNat - 87
    else if 'A' ≤ c ∧ c ≤ 'F' then c.toNat - 55
    else base
  if v < base then some v else none

/-- The number some digits write; none where one is not a digit. -/
def digitsValue (base : Nat) (ds : List Char) : Option Nat :=
  (allSome (ds.map (digitValue base))).map (fun vs => vs.foldl (fun acc v => acc * base + v) 0)

/-- "an unsigned integer in decimal or with a `0x` prefix in hexadecimal" (R91). -/
def parseNumber : List Char → Option Nat
  | [] => none
  | ['0', 'x'] => none
  | '0' :: 'x' :: ds => digitsValue 16 ds
  | ds => digitsValue 10 ds

/-- A letter in the case the mnemonics are written in: mnemonics are case-insensitive (R91). -/
def upperCase (c : Char) : Char := if 'a' ≤ c ∧ c ≤ 'z' then Char.ofNat (c.toNat - 32) else c

/-- The stem of a mnemonic, without its width (R83, R92). -/
inductive Stem where
  | op (o : Op)
  | seedKey
  | seedDef
  | nextN
deriving DecidableEq, Repr

/-- The stems, as they are spelled. -/
def stemTable : List (List Char × Stem) :=
  [ (['S', 'E', 'E', 'D'], .op .seed),
    (['K', 'E', 'Y', 'C', 'L', 'R'], .op .keyclr),
    (['K', 'E', 'Y', 'P', 'U', 'S', 'H'], .op .keypush),
    (['S', 'E', 'E', 'D', 'A', 'R', 'R'], .op .seedarr),
    (['N', 'E', 'X', 'T'], .op .next),
    (['S', 'T', 'A', 'T'], .op .stat),
    (['S', 'E', 'E', 'D', 'K', 'E', 'Y'], .seedKey),
    (['S', 'E', 'E', 'D', 'D', 'E', 'F'], .seedDef),
    (['N', 'E', 'X', 'T', 'N'], .nextN) ]

/-- How a mnemonic ends for each generator: "the width after the name" (R83). -/
def widthSuffix : GenId → List Char
  | .g32 => ['3', '2']
  | .g64 => ['6', '4']

/-- The stem and the generator a word names, if it is a mnemonic. -/
def parseMnemonic (word : List Char) : Option (Stem × GenId) :=
  let up := word.map upperCase
  (stemTable.flatMap (fun e => [(e.1 ++ widthSuffix .g32, (e.2, GenId.g32)),
    (e.1 ++ widthSuffix .g64, (e.2, GenId.g64))])).lookup up

/-- The operands after a mnemonic, separated by commas (R92); no text is no operand. -/
def parseOperands (t : List Char) : Option (List Nat) :=
  if trimBlanks t = [] then some []
  else allSome ((splitAtChar ',' t).map (fun piece => parseNumber (trimBlanks piece)))

/-- The source line a stem, a generator and some operands make, if their number fits. -/
def makeSource : Stem → GenId → List Nat → Option Source
  | .op o, u, [] => some (.line ⟨o, u, none⟩)
  | .op o, u, [v] => some (.line ⟨o, u, some v⟩)
  | .op _, _, _ => none
  | .seedKey, u, key => some (.seedKey u key)
  | .seedDef, u, [] => some (.seedDef u)
  | .seedDef, _, _ => none
  | .nextN, u, [n] => some (.nextN u n)
  | .nextN, _, _ => none

/-- One line of text, its comment dropped (R91): nothing on an empty line, none where it is no line
of the language. -/
def parseLine (t : List Char) : Option (List Source) :=
  let body := trimBlanks (t.takeWhile (fun c => c != ';'))
  if body = [] then some []
  else
    match parseMnemonic (body.takeWhile (fun c => !isBlank c)),
        parseOperands (body.dropWhile (fun c => !isBlank c)) with
    | some (stem, u), some operands => (makeSource stem u operands).map (fun s => [s])
    | _, _ => none

/-- A program's text, line by line (R91); none where the assembler rejects one of its lines. -/
def assembleText (t : List Char) : Option (List Command) :=
  match allSome ((splitAtChar '\n' t).map parseLine) with
  | none => none
  | some lines => (allSome (lines.flatten.map assembleSource)).map List.flatten

end Sys2Proof.Machine
end

