-- ==== Sys2Proof/Safety.lean ====
section
/-! DEFINITION. What the claims call a good state, an observation and a clean run. -/

namespace Sys2Proof.Safety

open Sys2Proof.Machine

/-- What every command keeps of a generator: the index while seeded (R33), the key length (R38),
the capacity (R15) and the error record (R36, R201). -/
abbrev GenInv {w n iw : Nat} (g : Gen w n iw) : Prop :=
  (g.seeded = true → g.idx.toNat ≤ n) ∧ g.klen.toNat ≤ g.key.length ∧
    1 ≤ g.key.length ∧ g.key.length ≤ 65535 ∧ g.err.toNat ≤ 4

/-- What is true of every response: the flag and the code agree (R87), the code is one of R201's,
and an error carries no data (R86). -/
abbrev ResponseInv (r : Response) : Prop :=
  (r.errf = false ↔ r.code = 0) ∧ r.code.toNat ≤ 4 ∧ (r.errf = true → r.rdata = 0)

/-- The invariant of the block. -/
abbrev BlockInv (s : State) : Prop :=
  GenInv s.g32 ∧ GenInv s.g64 ∧ ∀ r ∈ s.responses, ResponseInv r

/-- Two generators that no command can tell apart (R43): they agree on all but the array and the
index while unseeded, and the key words beyond the key length. -/
abbrev GenSame {w n iw : Nat} (g h : Gen w n iw) : Prop :=
  g.seeded = h.seeded ∧ g.err = h.err ∧ g.klen = h.klen ∧ g.key.length = h.key.length ∧
    g.key.take g.klen.toNat = h.key.take h.klen.toNat ∧
    (g.seeded = true → g.idx = h.idx ∧ g.mt = h.mt)

/-- Two states that no command can tell apart, with the same commands to come and the same responses
so far. -/
abbrev Same (s t : State) : Prop :=
  GenSame s.g32 t.g32 ∧ GenSame s.g64 t.g64 ∧ s.pending = t.pending ∧ s.responses = t.responses

/-- What a run shows at its end (R241): the responses in the order they were given, and the final
state of both generators. -/
def observation (s : State) : List Response × Gen32 × Gen64 := (s.responses.reverse, s.g32, s.g64)

/-- A run in which no command was in error.  92_eei_decisions.md D7 and 93_implementation_defined.md
U1 ask a model of a host program to count any other run as faulty. -/
abbrev CleanRun (s : State) : Prop := ∀ r ∈ s.responses, r.errf = false

end Sys2Proof.Safety
end

