-- ==== Sys2Proof/Certificates/Slice0/Obligations.lean ====
section
/-! DEFINITION. The statements for the provers.  Constants are written out from 00_scope.md, and what
a command computes is written as the spec's own recurrence, not as a call of the model's function.
`mt[k]!` is word `k` of an array.

The namespace `Sys2Proof.Claims` holds the forms that several statements share. -/

namespace Sys2Proof.Claims

open Sys2Proof Sys2Proof.Machine

/-- The code an error record holds after an error `code` (R36, R206): the first one stays. -/
def firstError (err code : BitVec 4) : BitVec 4 := if err = 0 then code else err

/-- Some commands, one after the other (R67), up to the first that does not answer a next state. -/
def execAll : List Instr → State → Outcome
  | [], s => .next s
  | i :: rest, s =>
    match exec i s with
    | .next t => execAll rest t
    | .fault f => .fault f
    | .refused r => .refused r

/-- The responses that the commands to generator `u` get, in order, when all of the list runs. -/
def answersOf (u : GenId) : List Instr → State → List Response
  | [], _ => []
  | i :: rest, s =>
    match exec i s with
    | .next t => if i.unit = u then t.responses.head?.toList ++ answersOf u rest t
        else answersOf u rest t
    | .fault _ => []
    | .refused _ => []

/-- `UNIT` of a command as a number, `CMD[11:8]` (R81). -/
def unitNumber (c : Command) : Nat := c.cmd.toNat / 256 % 16

/-- `OP` of a command as a number, `CMD[7:0]` (R81). -/
def opNumber (c : Command) : Nat := c.cmd.toNat % 256

/-- The mnemonics of R83 and the pseudo-instructions of R92, written out, with what each names. -/
def mnemonics : List (String × Stem × GenId) :=
  [ ("SEED32", .op .seed, .g32), ("SEED64", .op .seed, .g64),
    ("KEYCLR32", .op .keyclr, .g32), ("KEYCLR64", .op .keyclr, .g64),
    ("KEYPUSH32", .op .keypush, .g32), ("KEYPUSH64", .op .keypush, .g64),
    ("SEEDARR32", .op .seedarr, .g32), ("SEEDARR64", .op .seedarr, .g64),
    ("NEXT32", .op .next, .g32), ("NEXT64", .op .next, .g64),
    ("STAT32", .op .stat, .g32), ("STAT64", .op .stat, .g64),
    ("SEEDKEY32", .seedKey, .g32), ("SEEDKEY64", .seedKey, .g64),
    ("SEEDDEF32", .seedDef, .g32), ("SEEDDEF64", .seedDef, .g64),
    ("NEXTN32", .nextN, .g32), ("NEXTN64", .nextN, .g64) ]

/-- A hexadecimal digit; that either case is one is the model's choice (log 5). -/
def isHexDigit (c : Char) : Bool := c.isDigit || 'a' ≤ c && c ≤ 'f' || 'A' ≤ c && c ≤ 'F'

/-- The pair is refused as an ILLEGAL_COMMAND of `G32` (R204, R206): the step answers it with code 3,
`G32` records that if it holds no earlier error, and nothing else changes. -/
def Refused32 (c : Command) : Prop :=
  ∀ (s : State) (rest : List HostEvent), s.pending = .command c :: rest →
    step s = .next { s with
      pending := rest,
      g32 := { s.g32 with err := firstError s.g32.err 3 },
      responses := ⟨true, 3, 0⟩ :: s.responses }

/-- The pair is refused as an ILLEGAL_COMMAND of `G64` (R204, R206). -/
def Refused64 (c : Command) : Prop :=
  ∀ (s : State) (rest : List HostEvent), s.pending = .command c :: rest →
    step s = .next { s with
      pending := rest,
      g64 := { s.g64 with err := firstError s.g64.err 3 },
      responses := ⟨true, 3, 0⟩ :: s.responses }

/-! ### `G32`'s recurrences, with its constants (R9 to R11) -/

/-- What `FILL_32(v)` leaves in the array (R111, R110). -/
def Filled32 (v : Word32) (mt : Vector Word32 624) : Prop :=
  mt[0]! = v ∧
  ∀ i, 1 ≤ i → i < 624 →
    mt[i]! = 1812433253 * (mt[i - 1]! ^^^ (mt[i - 1]! >>> 30)) + BitVec.ofNat 32 i

/-- What `WEAVE_32(len)` leaves in the array (R114).  `b` is the baseline and `x t` the word that step
`t` of the two phases writes, counted through both: it stands at `1 + t mod (N - 1)`, its previous
word is the one the step before wrote (R114's wrap copies that word to `MT[0]`), and the word it
replaces is the baseline's until the pointer has gone round once. -/
def Woven32 (key : List Word32) (len : Nat) (mt : Vector Word32 624) : Prop :=
  ∃ (b : Vector Word32 624) (x : Nat → Word32), Filled32 19650218 b ∧
    (∀ t, t < max 624 len + 623 →
      let cur := if t < 623 then b[t + 1]! else x (t - 623)
      let prev := if t = 0 then b[0]! else x (t - 1)
      let mixed := prev ^^^ (prev >>> 30)
      x t = if t < max 624 len then
          (cur ^^^ (mixed * 1664525)) + key[t % len]! + BitVec.ofNat 32 (t % len)
        else (cur ^^^ (mixed * 1566083941)) - BitVec.ofNat 32 (1 + t % 623)) ∧
    mt[0]! = 0x80000000 ∧
    ∀ t, max 624 len ≤ t → t < max 624 len + 623 → mt[1 + t % 623]! = x t

/-- The batch `new` that `TWIST_32` makes of `old`, in place (R140, R141): past `N - M` the far word is one
already made, and the last word's neighbour is the new first word. -/
def Regenerated32 (old new : Vector Word32 624) : Prop :=
  ∀ k, k < 624 →
    let y := (old[k]! &&& 0x80000000) |||
      ((if k = 623 then new[0]! else old[k + 1]!) &&& 0x7FFFFFFF)
    new[k]! = (if k < 227 then old[k + 397]! else new[k - 227]!) ^^^ (y >>> 1) ^^^
      (if y.getLsbD 0 then 0x9908B0DF else 0)

/-- `TEMPER_32(y)` (R142). -/
def tempered32 (y : Word32) : Word32 :=
  let y := y ^^^ (y >>> 11)
  let y := y ^^^ ((y <<< 7) &&& 0x9D2C5680)
  let y := y ^^^ ((y <<< 15) &&& 0xEFC60000)
  y ^^^ (y >>> 18)

/-! ### `G64`'s recurrences, with its constants (R12 to R14) -/

/-- What `FILL_64(v)` leaves in the array (R111, R110). -/
def Filled64 (v : Word64) (mt : Vector Word64 312) : Prop :=
  mt[0]! = v ∧
  ∀ i, 1 ≤ i → i < 312 →
    mt[i]! = 6364136223846793005 * (mt[i - 1]! ^^^ (mt[i - 1]! >>> 62)) + BitVec.ofNat 64 i

/-- What `WEAVE_64(len)` leaves in the array (R114).  `b` is the baseline and `x t` the word that step
`t` of the two phases writes, counted through both: it stands at `1 + t mod (N - 1)`, its previous
word is the one the step before wrote (R114's wrap copies that word to `MT[0]`), and the word it
replaces is the baseline's until the pointer has gone round once. -/
def Woven64 (key : List Word64) (len : Nat) (mt : Vector Word64 312) : Prop :=
  ∃ (b : Vector Word64 312) (x : Nat → Word64), Filled64 19650218 b ∧
    (∀ t, t < max 312 len + 311 →
      let cur := if t < 311 then b[t + 1]! else x (t - 311)
      let prev := if t = 0 then b[0]! else x (t - 1)
      let mixed := prev ^^^ (prev >>> 62)
      x t = if t < max 312 len then
          (cur ^^^ (mixed * 3935559000370003845)) + key[t % len]! + BitVec.ofNat 64 (t % len)
        else (cur ^^^ (mixed * 2862933555777941757)) - BitVec.ofNat 64 (1 + t % 311)) ∧
    mt[0]! = 0x8000000000000000 ∧
    ∀ t, max 312 len ≤ t → t < max 312 len + 311 → mt[1 + t % 311]! = x t

/-- The batch `new` that `TWIST_64` makes of `old`, in place (R170, R171): past `N - M` the far word is one
already made, and the last word's neighbour is the new first word. -/
def Regenerated64 (old new : Vector Word64 312) : Prop :=
  ∀ k, k < 312 →
    let y := (old[k]! &&& 0xFFFFFFFF80000000) |||
      ((if k = 311 then new[0]! else old[k + 1]!) &&& 0x000000007FFFFFFF)
    new[k]! = (if k < 156 then old[k + 156]! else new[k - 156]!) ^^^ (y >>> 1) ^^^
      (if y.getLsbD 0 then 0xB5026F5AA96619E9 else 0)

/-- `TEMPER_64(y)` (R172). -/
def tempered64 (y : Word64) : Word64 :=
  let y := y ^^^ ((y >>> 29) &&& 0x5555555555555555)
  let y := y ^^^ ((y <<< 17) &&& 0x71D67FFFEDA60000)
  let y := y ^^^ ((y <<< 37) &&& 0xFFF7EEE000000000)
  y ^^^ (y >>> 43)

end Sys2Proof.Claims

open Sys2Proof Sys2Proof.Machine Sys2Proof.Safety Sys2Proof.Claims

/-! ### Encoding (30_encoding.md) -/

/-- R81 to R86, R88: the pair that the encoder writes for a command decodes to that command, with
every operand at every value of its width. -/
def Obligations.DecodeInvertsEncode : Prop :=
  ∀ i : Instr, decode (encode i) = .ok i

/-- R88, R89: a pair decodes to a command only if it is that command's own encoding, so every command
has one pair and no bit of a pair is dropped. -/
def Obligations.EncodeInvertsDecode : Prop :=
  ∀ (c : Command) (i : Instr), decode c = .ok i → encode i = c

/-- R88, R89: the decoder accepts a pair, as a command of some unit and operation, exactly where the
opcode table has a row of that unit and operation that the pair fits. -/
def Obligations.DecodeAcceptsExactlyTheOpcodeTable : Prop :=
  ∀ (c : Command) (u : GenId) (o : Op),
    (∃ i, decode c = .ok i ∧ i.unit = u ∧ i.op = o) ↔
      ∃ r ∈ opcodeTable, r.unit = u ∧ r.op = o ∧ r.fits c = true

/-- R81 to R84, R88: a pair is legal exactly where its four fields are, each checked as a number. -/
def Obligations.LegalPairsAreTheWellFormedOnes : Prop :=
  ∀ c : Command, (∃ i, decode c = .ok i) ↔ c.WellFormed = true

/-- R88: the refusals have an order.  `RSV` is tested first, then `UNIT`, then `OP`, then `DATA`, so a
pair that fails several tests is refused for the first of them.  The two tests of `DATA` are for
different operations, and together they are the well-formedness check. -/
def Obligations.IllegalPairsAreNamedInOrder : Prop :=
  ∀ c : Command,
    (decode c = .error .reservedBits ↔ c.reservedBitsClear = false) ∧
    (decode c = .error .reservedUnit ↔ c.reservedBitsClear = true ∧ c.unitLegal = false) ∧
    (decode c = .error .reservedOp ↔
      c.reservedBitsClear = true ∧ c.unitLegal = true ∧ c.opLegal = false) ∧
    (decode c = .error .wideOperand ↔
      c.reservedBitsClear = true ∧ unitNumber c = 0 ∧ (opNumber c = 1 ∨ opNumber c = 3) ∧
        2 ^ 32 ≤ c.data.toNat) ∧
    (decode c = .error .unexpectedData ↔
      c.reservedBitsClear = true ∧ c.unitLegal = true ∧
        (opNumber c = 2 ∨ opNumber c = 4 ∨ opNumber c = 5 ∨ opNumber c = 6) ∧ c.data ≠ 0) ∧
    (decode c = .error .wideOperand ∨ decode c = .error .unexpectedData ↔
      c.reservedBitsClear = true ∧ c.unitLegal = true ∧ c.opLegal = true ∧
        c.operandBitsClear = false)

/-- R83: some command words, written out from the opcode map, decode to their commands. -/
def Obligations.WrittenOutWordsDecode : Prop :=
  decode ⟨0b0000000000000001, 0x0000000000001571⟩ = .ok (.seed32 0x00001571) ∧
  decode ⟨0b0000000000000011, 0x00000000FFFFFFFF⟩ = .ok (.keypush32 0xFFFFFFFF) ∧
  decode ⟨0b0000000000000101, 0⟩ = .ok .next32 ∧
  decode ⟨0b0000000100000011, 0x0123456789ABCDEF⟩ = .ok (.keypush64 0x0123456789ABCDEF) ∧
  decode ⟨0b0000000100000100, 0⟩ = .ok .seedarr64 ∧
  decode ⟨0b0000000100000110, 0⟩ = .ok .stat64 ∧
  decode ⟨0b0000000000000000, 0⟩ = .error .reservedOp ∧
  decode ⟨0b0000001000000001, 0⟩ = .error .reservedUnit ∧
  decode ⟨0b0001000000000001, 0⟩ = .error .reservedBits

/-- R91: an assembler turns a line into the pair of its command with its operand zero-extended, and
rejects a line whose operand is missing, superfluous or out of range, without truncating it. -/
def Obligations.AssembledLineDecodesToItself : Prop :=
  ∀ l : AsmLine,
    (l.WellFormed = false → assembleLine l = none) ∧
    (l.WellFormed = true →
      ∃ c i, assembleLine l = some c ∧ decode c = .ok i ∧ i.unit = l.unit ∧ i.op = l.op ∧
        c.data.toNat = l.operand.getD 0)

/-- R92: each pseudo-instruction assembles to the commands it stands for, in order; `NEXTNw` needs
`n >= 1`; and `KEYCLRw; SEEDARRw`, the expansion of an empty `SEEDKEYw`, raises INVALID_INPUT. -/
def Obligations.PseudoInstructionsExpand : Prop :=
  (∀ (u : GenId) (key : List Nat), (∀ k ∈ key, k < 2 ^ u.width) →
    assembleSource (.seedKey u key) = some (⟨commandWord u .keyclr, 0⟩ ::
      (key.map (fun k => ⟨commandWord u .keypush, BitVec.ofNat 64 k⟩) ++
        [⟨commandWord u .seedarr, 0⟩]))) ∧
  (∀ u : GenId, assembleSource (.seedDef u) = some [⟨commandWord u .seed, 5489⟩]) ∧
  (∀ (u : GenId) (n : Nat), 1 ≤ n →
    assembleSource (.nextN u n) = some (List.replicate n ⟨commandWord u .next, 0⟩)) ∧
  (∀ u : GenId, assembleSource (.nextN u 0) = none) ∧
  (∀ s : State, ∃ t, execAll [.keyclr32, .seedarr32] s = .next t ∧
    t.responses = ⟨true, 1, 0⟩ :: ⟨false, 0, 0⟩ :: s.responses) ∧
  (∀ s : State, ∃ t, execAll [.keyclr64, .seedarr64] s = .next t ∧
    t.responses = ⟨true, 1, 0⟩ :: ⟨false, 0, 0⟩ :: s.responses)

/-- R91, R92: each mnemonic, in any case, names its own operation or pseudo-instruction and its own
generator, and no other word is a mnemonic; `;` starts a comment that runs to the end of the line; an
operand is read in decimal, or with a `0x` prefix in hexadecimal, and nothing else is an operand; and
a mnemonic of a command, alone or with an operand, reads as the line it writes.  That a blank stands
before the operand is R91's form `MNEMONIC [operand]`; hexadecimal digits of either case are log 5. -/
def Obligations.AssemblerReadsTextAsWritten : Prop :=
  (∀ e ∈ mnemonics, parseMnemonic e.1.toList = some e.2) ∧
  (∀ (w : List Char) (r : Stem × GenId), parseMnemonic w = some r →
    ∃ e ∈ mnemonics, w.map Char.toUpper = e.1.toList ∧ e.2 = r) ∧
  (∀ w w' : List Char, w.map Char.toLower = w'.map Char.toLower → parseMnemonic w = parseMnemonic w') ∧
  (∀ t c : List Char, ';' ∉ t → parseLine (t ++ ';' :: c) = parseLine t) ∧
  (∀ n : Nat, parseNumber (Nat.toDigits 10 n) = some n) ∧
  (∀ n : Nat, parseNumber ('0' :: 'x' :: Nat.toDigits 16 n) = some n) ∧
  (∀ (t : List Char) (v : Nat), parseNumber t = some v →
    (t ≠ [] ∧ t.all Char.isDigit = true) ∨
    ∃ ds, ds ≠ [] ∧ t = '0' :: 'x' :: ds ∧ ds.all isHexDigit = true) ∧
  (∀ (w : List Char) (o : Op) (u : GenId) (n : Nat), parseMnemonic w = some (.op o, u) →
    parseLine w = some [.line ⟨o, u, none⟩] ∧
    parseLine (w ++ ' ' :: Nat.toDigits 10 n) = some [.line ⟨o, u, some n⟩] ∧
    parseLine (w ++ ' ' :: '0' :: 'x' :: Nat.toDigits 16 n) = some [.line ⟨o, u, some n⟩])

/-! ### The step and the host's events -/

/-- R80, R88: when the host's next event is a pair that decodes to a command, the step takes the event
and is that command's `exec`.  That the host's events stand in `pending` is log 4. -/
def Obligations.StepRunsTheDecodedCommand : Prop :=
  ∀ (s : State) (c : Command) (rest : List HostEvent) (i : Instr),
    s.pending = .command c :: rest → decode c = .ok i →
      step s = exec i { s with pending := rest }

/-- A command that the decoder reads from a number is the one the next step runs, on the state as it
stood (logs 4 and 6). -/
def Obligations.FetchedWordIsTheOneThatRuns : Prop :=
  ∀ (s : State) (nbits w : Nat) (i : Instr),
    decodeTableWord nbits w = some i → step (s.withFetchWord nbits w) = exec i s

/-- R204, R206: a pair that does not decode is answered with ILLEGAL_COMMAND; the generator that `UNIT`
names records it if it holds no earlier error, no other state changes, and a reserved `UNIT` changes
neither generator. -/
def Obligations.IllegalPairIsRefusedAndRecorded : Prop :=
  ∀ (s : State) (c : Command) (rest : List HostEvent) (why : Illegal),
    s.pending = .command c :: rest → decode c = .error why →
      step s = .next { s with
        pending := rest,
        responses := ⟨true, 3, 0⟩ :: s.responses,
        g32 := if unitNumber c = 0 then { s.g32 with err := firstError s.g32.err 3 } else s.g32,
        g64 := if unitNumber c = 1 then { s.g64 with err := firstError s.g64.err 3 } else s.g64 }

/-- R216: with nothing to do the block is idle, and "idle loses no state".  That being idle is a step
is log 9. -/
def Obligations.IdleLosesNoState : Prop :=
  ∀ s : State, s.pending = [] → step s = .next s

/-- R230, R42: the reset event, from every state, leaves both generators unseeded, with no error and
an empty key, and has no response.  The capacities and the commands to come are the host's and the
implementation's and stay (log 2). -/
def Obligations.ResetEventUnseedsBothGenerators : Prop :=
  ∀ (s : State) (rest : List HostEvent), s.pending = .reset :: rest →
    ∃ t, step s = .next t ∧
      t.g32.seeded = false ∧ t.g32.err = 0 ∧ t.g32.klen = 0 ∧
      t.g64.seeded = false ∧ t.g64.err = 0 ∧ t.g64.klen = 0 ∧
      t.g32.key.length = s.g32.key.length ∧ t.g64.key.length = s.g64.key.length ∧
      t.pending = rest ∧ t.responses = s.responses

/-- R42, R231: after reset both generators are unseeded, with no error and an empty key, and the block
waits for the host's first command. -/
def Obligations.ResetStateIsUnseededAndWaiting : Prop :=
  State.reset.g32.seeded = false ∧ State.reset.g32.err = 0 ∧ State.reset.g32.klen = 0 ∧
  State.reset.g64.seeded = false ∧ State.reset.g64.err = 0 ∧ State.reset.g64.klen = 0 ∧
  State.reset.pending = [] ∧ State.reset.responses = []

/-! ### The commands of `G32` -/

/-- R144: `SEED32`, from every state, fills the array and leaves the generator seeded at `N`.  Nothing
else changes, and the response is a success without data. -/
def Obligations.Seed32FillsTheArrayAndSeeds : Prop :=
  (∀ d : BitVec 64, d.toNat < 2 ^ 32 → decode ⟨0x0001, d⟩ = .ok (.seed32 (d.setWidth 32))) ∧
  (∀ d : BitVec 64, 2 ^ 32 ≤ d.toNat → Refused32 ⟨0x0001, d⟩) ∧
  ∀ (v : Word32) (s : State), ∃ mt : Vector Word32 624, Filled32 v mt ∧
    exec (.seed32 v) s = .next { s with
      g32 := { s.g32 with mt := mt, idx := 624, seeded := true },
      responses := ⟨false, 0, 0⟩ :: s.responses }

/-- R145: `KEYCLR32`, from every state, sets the key length to zero and changes nothing else. -/
def Obligations.Keyclr32EmptiesTheKey : Prop :=
  decode ⟨0x0002, 0⟩ = .ok .keyclr32 ∧
  (∀ d : BitVec 64, d ≠ 0 → Refused32 ⟨0x0002, d⟩) ∧
  ∀ s : State, exec .keyclr32 s = .next { s with
    g32 := { s.g32 with klen := 0 },
    responses := ⟨false, 0, 0⟩ :: s.responses }

/-- R146: `KEYPUSH32` writes one word of the key buffer and adds one to the key length; on a full
buffer it raises KEY_OVERFLOW and discards the word.  The two bounds are `Safety.GenInv`'s. -/
def Obligations.Keypush32AppendsOneWord : Prop :=
  (∀ d : BitVec 64, d.toNat < 2 ^ 32 → decode ⟨0x0003, d⟩ = .ok (.keypush32 (d.setWidth 32))) ∧
  (∀ d : BitVec 64, 2 ^ 32 ≤ d.toNat → Refused32 ⟨0x0003, d⟩) ∧
  ∀ (v : Word32) (s : State), s.g32.klen.toNat ≤ s.g32.key.length → s.g32.key.length ≤ 65535 →
    (s.g32.klen.toNat = s.g32.key.length →
      exec (.keypush32 v) s = .next { s with
        g32 := { s.g32 with err := firstError s.g32.err 4 },
        responses := ⟨true, 4, 0⟩ :: s.responses }) ∧
    (s.g32.klen.toNat < s.g32.key.length →
      ∃ key klen,
        exec (.keypush32 v) s = .next { s with
          g32 := { s.g32 with key := key, klen := klen },
          responses := ⟨false, 0, 0⟩ :: s.responses } ∧
        klen.toNat = s.g32.klen.toNat + 1 ∧ key.length = s.g32.key.length ∧
        key[s.g32.klen.toNat]? = some v ∧
        ∀ j, j ≠ s.g32.klen.toNat → key[j]? = s.g32.key[j]?)

/-- R147: `SEEDARR32` weaves the key into the array and leaves the generator seeded at `N`; on an
empty key it raises INVALID_INPUT, writes neither array nor index, and leaves it unseeded.  The
bound on the key length is `Safety.GenInv`'s. -/
def Obligations.Seedarr32WeavesTheKey : Prop :=
  decode ⟨0x0004, 0⟩ = .ok .seedarr32 ∧
  (∀ d : BitVec 64, d ≠ 0 → Refused32 ⟨0x0004, d⟩) ∧
  ∀ s : State,
    (s.g32.klen = 0 →
      exec .seedarr32 s = .next { s with
        g32 := { s.g32 with seeded := false, err := firstError s.g32.err 1 },
        responses := ⟨true, 1, 0⟩ :: s.responses }) ∧
    (s.g32.klen ≠ 0 → s.g32.klen.toNat ≤ s.g32.key.length →
      ∃ mt : Vector Word32 624, Woven32 s.g32.key s.g32.klen.toNat mt ∧
        exec .seedarr32 s = .next { s with
          g32 := { s.g32 with mt := mt, idx := 624, seeded := true },
          responses := ⟨false, 0, 0⟩ :: s.responses })

/-- R148: `NEXT32` tempers the word at the index and moves the index on; with the batch used up it
first regenerates the whole array; unseeded it raises INVALID_STATE. -/
def Obligations.Next32EmitsTheNextWord : Prop :=
  decode ⟨0x0005, 0⟩ = .ok .next32 ∧
  (∀ d : BitVec 64, d ≠ 0 → Refused32 ⟨0x0005, d⟩) ∧
  ∀ s : State,
    (s.g32.seeded = false →
      exec .next32 s = .next { s with
        g32 := { s.g32 with err := firstError s.g32.err 2 },
        responses := ⟨true, 2, 0⟩ :: s.responses }) ∧
    (s.g32.seeded = true → s.g32.idx.toNat < 624 →
      ∃ idx, idx.toNat = s.g32.idx.toNat + 1 ∧
        exec .next32 s = .next { s with
          g32 := { s.g32 with idx := idx },
          responses := ⟨false, 0, (tempered32 s.g32.mt[s.g32.idx.toNat]!).setWidth 64⟩ ::
            s.responses }) ∧
    (s.g32.seeded = true → s.g32.idx = 624 →
      ∃ mt : Vector Word32 624, Regenerated32 s.g32.mt mt ∧
        exec .next32 s = .next { s with
          g32 := { s.g32 with mt := mt, idx := 1 },
          responses := ⟨false, 0, (tempered32 mt[0]!).setWidth 64⟩ :: s.responses })

/-- R149, R39: `STAT32`, from every state, returns the status view, field by field, and changes
nothing but the responses. -/
def Obligations.Stat32ReadsTheStatus : Prop :=
  decode ⟨0x0006, 0⟩ = .ok .stat32 ∧
  (∀ d : BitVec 64, d ≠ 0 → Refused32 ⟨0x0006, d⟩) ∧
  ∀ s : State, ∃ d : BitVec 64,
    exec .stat32 s = .next { s with responses := ⟨false, 0, d⟩ :: s.responses } ∧
    d.extractLsb' 0 10 = (if s.g32.seeded then s.g32.idx.setWidth 10 else 0) ∧
    d.extractLsb' 10 6 = 0 ∧
    d.extractLsb' 16 1 = BitVec.ofBool s.g32.seeded ∧
    d.extractLsb' 17 3 = 0 ∧
    d.extractLsb' 20 4 = s.g32.err ∧
    d.extractLsb' 24 8 = 0 ∧
    d.extractLsb' 32 16 = s.g32.klen ∧
    d.extractLsb' 48 16 = 0

/-! ### The commands of `G64` -/

/-- R174: `SEED64`, from every state, fills the array and leaves the generator seeded at `N`.  Nothing
else changes, and the response is a success without data. -/
def Obligations.Seed64FillsTheArrayAndSeeds : Prop :=
  (∀ d : BitVec 64, decode ⟨0x0101, d⟩ = .ok (.seed64 d)) ∧
  ∀ (v : Word64) (s : State), ∃ mt : Vector Word64 312, Filled64 v mt ∧
    exec (.seed64 v) s = .next { s with
      g64 := { s.g64 with mt := mt, idx := 312, seeded := true },
      responses := ⟨false, 0, 0⟩ :: s.responses }

/-- R175: `KEYCLR64`, from every state, sets the key length to zero and changes nothing else. -/
def Obligations.Keyclr64EmptiesTheKey : Prop :=
  decode ⟨0x0102, 0⟩ = .ok .keyclr64 ∧
  (∀ d : BitVec 64, d ≠ 0 → Refused64 ⟨0x0102, d⟩) ∧
  ∀ s : State, exec .keyclr64 s = .next { s with
    g64 := { s.g64 with klen := 0 },
    responses := ⟨false, 0, 0⟩ :: s.responses }

/-- R176: `KEYPUSH64` writes one word of the key buffer and adds one to the key length; on a full
buffer it raises KEY_OVERFLOW and discards the word.  The two bounds are `Safety.GenInv`'s. -/
def Obligations.Keypush64AppendsOneWord : Prop :=
  (∀ d : BitVec 64, decode ⟨0x0103, d⟩ = .ok (.keypush64 d)) ∧
  ∀ (v : Word64) (s : State), s.g64.klen.toNat ≤ s.g64.key.length → s.g64.key.length ≤ 65535 →
    (s.g64.klen.toNat = s.g64.key.length →
      exec (.keypush64 v) s = .next { s with
        g64 := { s.g64 with err := firstError s.g64.err 4 },
        responses := ⟨true, 4, 0⟩ :: s.responses }) ∧
    (s.g64.klen.toNat < s.g64.key.length →
      ∃ key klen,
        exec (.keypush64 v) s = .next { s with
          g64 := { s.g64 with key := key, klen := klen },
          responses := ⟨false, 0, 0⟩ :: s.responses } ∧
        klen.toNat = s.g64.klen.toNat + 1 ∧ key.length = s.g64.key.length ∧
        key[s.g64.klen.toNat]? = some v ∧
        ∀ j, j ≠ s.g64.klen.toNat → key[j]? = s.g64.key[j]?)

/-- R177: `SEEDARR64` weaves the key into the array and leaves the generator seeded at `N`; on an
empty key it raises INVALID_INPUT, writes neither array nor index, and leaves it unseeded.  The
bound on the key length is `Safety.GenInv`'s. -/
def Obligations.Seedarr64WeavesTheKey : Prop :=
  decode ⟨0x0104, 0⟩ = .ok .seedarr64 ∧
  (∀ d : BitVec 64, d ≠ 0 → Refused64 ⟨0x0104, d⟩) ∧
  ∀ s : State,
    (s.g64.klen = 0 →
      exec .seedarr64 s = .next { s with
        g64 := { s.g64 with seeded := false, err := firstError s.g64.err 1 },
        responses := ⟨true, 1, 0⟩ :: s.responses }) ∧
    (s.g64.klen ≠ 0 → s.g64.klen.toNat ≤ s.g64.key.length →
      ∃ mt : Vector Word64 312, Woven64 s.g64.key s.g64.klen.toNat mt ∧
        exec .seedarr64 s = .next { s with
          g64 := { s.g64 with mt := mt, idx := 312, seeded := true },
          responses := ⟨false, 0, 0⟩ :: s.responses })

/-- R178: `NEXT64` tempers the word at the index and moves the index on; with the batch used up it
first regenerates the whole array; unseeded it raises INVALID_STATE. -/
def Obligations.Next64EmitsTheNextWord : Prop :=
  decode ⟨0x0105, 0⟩ = .ok .next64 ∧
  (∀ d : BitVec 64, d ≠ 0 → Refused64 ⟨0x0105, d⟩) ∧
  ∀ s : State,
    (s.g64.seeded = false →
      exec .next64 s = .next { s with
        g64 := { s.g64 with err := firstError s.g64.err 2 },
        responses := ⟨true, 2, 0⟩ :: s.responses }) ∧
    (s.g64.seeded = true → s.g64.idx.toNat < 312 →
      ∃ idx, idx.toNat = s.g64.idx.toNat + 1 ∧
        exec .next64 s = .next { s with
          g64 := { s.g64 with idx := idx },
          responses := ⟨false, 0, (tempered64 s.g64.mt[s.g64.idx.toNat]!).setWidth 64⟩ ::
            s.responses }) ∧
    (s.g64.seeded = true → s.g64.idx = 312 →
      ∃ mt : Vector Word64 312, Regenerated64 s.g64.mt mt ∧
        exec .next64 s = .next { s with
          g64 := { s.g64 with mt := mt, idx := 1 },
          responses := ⟨false, 0, (tempered64 mt[0]!).setWidth 64⟩ :: s.responses })

/-- R179, R39: `STAT64`, from every state, returns the status view, field by field, and changes
nothing but the responses. -/
def Obligations.Stat64ReadsTheStatus : Prop :=
  decode ⟨0x0106, 0⟩ = .ok .stat64 ∧
  (∀ d : BitVec 64, d ≠ 0 → Refused64 ⟨0x0106, d⟩) ∧
  ∀ s : State, ∃ d : BitVec 64,
    exec .stat64 s = .next { s with responses := ⟨false, 0, d⟩ :: s.responses } ∧
    d.extractLsb' 0 10 = (if s.g64.seeded then s.g64.idx.setWidth 10 else 0) ∧
    d.extractLsb' 10 6 = 0 ∧
    d.extractLsb' 16 1 = BitVec.ofBool s.g64.seeded ∧
    d.extractLsb' 17 3 = 0 ∧
    d.extractLsb' 20 4 = s.g64.err ∧
    d.extractLsb' 24 8 = 0 ∧
    d.extractLsb' 32 16 = s.g64.klen ∧
    d.extractLsb' 48 16 = 0

/-! ### The datapath (40_seeding_pipelines.md, R142, R172) -/

/-- R110, R112, R113: the three pipelines at both widths, with their constants written out. -/
def Obligations.PipelinesFollowTheirFormulas : Prop :=
  (∀ (p : Word32) (i : Nat),
    seedMul params32 p i = 1812433253 * (p ^^^ (p >>> 30)) + BitVec.ofNat 32 i) ∧
  (∀ (p : Word64) (i : Nat),
    seedMul params64 p i = 6364136223846793005 * (p ^^^ (p >>> 62)) + BitVec.ofNat 64 i) ∧
  (∀ (c p kv : Word32) (j : Nat),
    mix1 params32 c p kv j = (c ^^^ ((p ^^^ (p >>> 30)) * 1664525)) + kv + BitVec.ofNat 32 j) ∧
  (∀ (c p kv : Word64) (j : Nat), mix1 params64 c p kv j =
    (c ^^^ ((p ^^^ (p >>> 62)) * 3935559000370003845)) + kv + BitVec.ofNat 64 j) ∧
  (∀ (c p : Word32) (i : Nat),
    mix2 params32 c p i = (c ^^^ ((p ^^^ (p >>> 30)) * 1566083941)) - BitVec.ofNat 32 i) ∧
  (∀ (c p : Word64) (i : Nat), mix2 params64 c p i =
    (c ^^^ ((p ^^^ (p >>> 62)) * 2862933555777941757)) - BitVec.ofNat 64 i)

/-- R61, R114, R115: the pointers of the weave, before every step of it.  After `m` steps of the key
phase `i` is `1 + m mod (N - 1)` and `j` is `m mod L`; the second phase takes `i` on from where the key
phase left it, to `1 + (max(N, L) + m) mod (N - 1)` after `m` steps.  So neither ever leaves its array,
and the second phase ends with `i` where it began, which is R115's `1 + (max(N, L) mod (N - 1))`. -/
def Obligations.WeavePointersStayInRange : Prop :=
  (∀ (key : List Word32) (len m : Nat) (mt : Vector Word32 624), 1 ≤ len →
    (repeatStep (keyStep params32 key len) m (weaveStart params32 mt)).i = 1 + m % 623 ∧
    (repeatStep (keyStep params32 key len) m (weaveStart params32 mt)).j = m % len ∧
    (repeatStep (secondStep params32) m (keyPhase params32 key len (weaveStart params32 mt))).i =
      1 + (max 624 len + m) % 623 ∧
    (secondPhase params32 (keyPhase params32 key len (weaveStart params32 mt))).i =
      1 + max 624 len % 623) ∧
  (∀ (key : List Word64) (len m : Nat) (mt : Vector Word64 312), 1 ≤ len →
    (repeatStep (keyStep params64 key len) m (weaveStart params64 mt)).i = 1 + m % 311 ∧
    (repeatStep (keyStep params64 key len) m (weaveStart params64 mt)).j = m % len ∧
    (repeatStep (secondStep params64) m (keyPhase params64 key len (weaveStart params64 mt))).i =
      1 + (max 312 len + m) % 311 ∧
    (secondPhase params64 (keyPhase params64 key len (weaveStart params64 mt))).i =
      1 + max 312 len % 311)

/-- R142: the tempering of `G32` is its four steps, the first and the last unmasked. -/
def Obligations.Temper32IsItsFourSteps : Prop :=
  ∀ y : Word32, temper params32 y = tempered32 y

/-- R172: the tempering of `G64` is its four steps, the canonical ones of 90_conflicts.md C1. -/
def Obligations.Temper64IsItsFourSteps : Prop :=
  ∀ y : Word64, temper params64 y = tempered64 y

/-- R143: `TEMPER_32` keeps zero, and it and each of its four steps are bijections on 32-bit words. -/
def Obligations.Temper32IsABijection : Prop :=
  temper params32 0 = 0 ∧ Function.Bijective (temper params32) ∧
  Function.Bijective (fun y : Word32 => y ^^^ (y >>> 11)) ∧
  Function.Bijective (fun y : Word32 => y ^^^ ((y <<< 7) &&& 0x9D2C5680)) ∧
  Function.Bijective (fun y : Word32 => y ^^^ ((y <<< 15) &&& 0xEFC60000)) ∧
  Function.Bijective (fun y : Word32 => y ^^^ (y >>> 18))

/-- R173: `TEMPER_64` keeps zero, and it and each of its four steps are bijections on 64-bit words. -/
def Obligations.Temper64IsABijection : Prop :=
  temper params64 0 = 0 ∧ Function.Bijective (temper params64) ∧
  Function.Bijective (fun y : Word64 => y ^^^ ((y >>> 29) &&& 0x5555555555555555)) ∧
  Function.Bijective (fun y : Word64 => y ^^^ ((y <<< 17) &&& 0x71D67FFFEDA60000)) ∧
  Function.Bijective (fun y : Word64 => y ^^^ ((y <<< 37) &&& 0xFFF7EEE000000000)) ∧
  Function.Bijective (fun y : Word64 => y ^^^ (y >>> 43))

/-- R119, R237: what a seeding leaves in the array does not depend on what the array held, nor on
anything else of the state but the seed, or the key words in use. -/
def Obligations.SeedingForgetsThePast : Prop :=
  (∀ (v : Word32) (s t s' t' : State),
    exec (.seed32 v) s = .next s' → exec (.seed32 v) t = .next t' →
      s'.g32.mt = t'.g32.mt ∧ s'.g32.idx = t'.g32.idx) ∧
  (∀ (v : Word64) (s t s' t' : State),
    exec (.seed64 v) s = .next s' → exec (.seed64 v) t = .next t' →
      s'.g64.mt = t'.g64.mt ∧ s'.g64.idx = t'.g64.idx) ∧
  (∀ (s t s' t' : State), s.g32.klen ≠ 0 → s.g32.klen = t.g32.klen →
    s.g32.key.take s.g32.klen.toNat = t.g32.key.take t.g32.klen.toNat →
    exec .seedarr32 s = .next s' → exec .seedarr32 t = .next t' →
      s'.g32.mt = t'.g32.mt ∧ s'.g32.idx = t'.g32.idx) ∧
  (∀ (s t s' t' : State), s.g64.klen ≠ 0 → s.g64.klen = t.g64.klen →
    s.g64.key.take s.g64.klen.toNat = t.g64.key.take t.g64.klen.toNat →
    exec .seedarr64 s = .next s' → exec .seedarr64 t = .next t' →
      s'.g64.mt = t'.g64.mt ∧ s'.g64.idx = t'.g64.idx)

/-! ### Errors (60_exceptions.md) -/

/-- R202: an empty-key `SEEDARR` changes only `SEEDED` and the error record, and after it `NEXT`
raises INVALID_STATE and leaves the generator as it is, whatever it was before.  Only a `SEED`, or a
`SEEDARR` with a key, makes an unseeded generator seeded again. -/
def Obligations.EmptyKeyLeavesNoUsableGenerator : Prop :=
  (∀ s : State, s.g32.klen = 0 → ∃ t u,
    exec .seedarr32 s = .next t ∧ exec .next32 t = .next u ∧
    t.responses = ⟨true, 1, 0⟩ :: s.responses ∧ u.responses = ⟨true, 2, 0⟩ :: t.responses ∧
    t.g32 = { s.g32 with seeded := false, err := firstError s.g32.err 1 } ∧ u.g32 = t.g32) ∧
  (∀ s : State, s.g64.klen = 0 → ∃ t u,
    exec .seedarr64 s = .next t ∧ exec .next64 t = .next u ∧
    t.responses = ⟨true, 1, 0⟩ :: s.responses ∧ u.responses = ⟨true, 2, 0⟩ :: t.responses ∧
    t.g64 = { s.g64 with seeded := false, err := firstError s.g64.err 1 } ∧ u.g64 = t.g64) ∧
  (∀ (i : Instr) (s t : State), s.g32.seeded = false → exec i s = .next t → t.g32.seeded = true →
    i.unit = .g32 ∧ (i.op = .seed ∨ i.op = .seedarr ∧ s.g32.klen ≠ 0)) ∧
  (∀ (i : Instr) (s t : State), s.g64.seeded = false → exec i s = .next t → t.g64.seeded = true →
    i.unit = .g64 ∧ (i.op = .seed ∨ i.op = .seedarr ∧ s.g64.klen ≠ 0))

/-- R203: `NEXT` on an unseeded generator raises INVALID_STATE and writes nothing but the error record;
no default seed is applied. -/
def Obligations.UnseededNextIsRefused : Prop :=
  (∀ s : State, s.g32.seeded = false →
    exec .next32 s = .next { s with
      g32 := { s.g32 with err := firstError s.g32.err 2 },
      responses := ⟨true, 2, 0⟩ :: s.responses }) ∧
  (∀ s : State, s.g64.seeded = false →
    exec .next64 s = .next { s with
      g64 := { s.g64 with err := firstError s.g64.err 2 },
      responses := ⟨true, 2, 0⟩ :: s.responses })

/-- R205: `KEYPUSH` on a full key buffer raises KEY_OVERFLOW and discards the word: nothing is written
but the error record. -/
def Obligations.FullKeyBufferRefusesAPush : Prop :=
  (∀ (v : Word32) (s : State), s.g32.klen.toNat = s.g32.key.length →
    exec (.keypush32 v) s = .next { s with
      g32 := { s.g32 with err := firstError s.g32.err 4 },
      responses := ⟨true, 4, 0⟩ :: s.responses }) ∧
  (∀ (v : Word64) (s : State), s.g64.klen.toNat = s.g64.key.length →
    exec (.keypush64 v) s = .next { s with
      g64 := { s.g64 with err := firstError s.g64.err 4 },
      responses := ⟨true, 4, 0⟩ :: s.responses })

/-- R36, R206: the error record of a generator changes only from zero, and then to the code of the
error that a command addressed to that generator, legal or not, has just raised. -/
def Obligations.FirstErrorSticks : Prop :=
  ∀ (s t : State) (c : Command) (rest : List HostEvent),
    s.pending = .command c :: rest → step s = .next t →
      ∃ r, t.responses = r :: s.responses ∧
        t.g32.err = (if s.g32.err ≠ 0 then s.g32.err else if unitNumber c = 0 then r.code else 0) ∧
        t.g64.err = (if s.g64.err ≠ 0 then s.g64.err else if unitNumber c = 1 then r.code else 0)

/-- R206, R207: a command, legal or not, that is answered with an error has written nothing but the
error record and, for INVALID_INPUT alone, `SEEDED <- 0`. -/
def Obligations.ErrorsArePrecise : Prop :=
  ∀ (s t : State) (c : Command) (rest : List HostEvent) (r : Response),
    s.pending = .command c :: rest → step s = .next t → t.responses = r :: s.responses →
    r.errf = true →
      t.pending = rest ∧
      t.g32 = { s.g32 with err := t.g32.err, seeded := t.g32.seeded } ∧
      t.g64 = { s.g64 with err := t.g64.err, seeded := t.g64.seeded } ∧
      (t.g32.seeded ≠ s.g32.seeded → r.code = 1 ∧ t.g32.seeded = false) ∧
      (t.g64.seeded ≠ s.g64.seeded → r.code = 1 ∧ t.g64.seeded = false)

/-- R80, R86, R87, R201: every pair the host sends gets exactly one response, whose flag and code agree,
whose code is one of the five, and which carries no data if it is an error; the step takes that one
event and no other. -/
def Obligations.EveryCommandAnswersOnce : Prop :=
  ∀ (s t : State) (c : Command) (rest : List HostEvent),
    s.pending = .command c :: rest → step s = .next t →
      t.pending = rest ∧ ∃ r, t.responses = r :: s.responses ∧
        (r.errf = false ↔ r.code = 0) ∧ r.code.toNat ≤ 4 ∧ (r.errf = true → r.rdata = 0)

/-- R86, R148: a command other than `NEXT` and `STAT` returns no data, and a `NEXT32` result is
zero-extended. -/
def Obligations.OnlyNextAndStatReturnData : Prop :=
  ∀ (i : Instr) (s t : State), exec i s = .next t →
    ∃ r, t.responses = r :: s.responses ∧
      (i.op ≠ .next → i.op ≠ .stat → r.rdata = 0) ∧
      (i = .next32 → r.rdata.toNat < 2 ^ 32)

/-! ### The whole machine -/

/-- The state after reset meets the invariant.  Its unspecified elements hold the model's values
(log 1), of which the invariant says nothing while unseeded. -/
def Obligations.ResetMeetsTheInvariant : Prop :=
  BlockInv State.reset

/-- R33, R36, R38, R87: every step, from every state that meets the invariant, leaves it met: the index
in `[0, N]` while seeded, the key length within the buffer, and only the codes of R201 in the error
records and the responses. -/
def Obligations.StepKeepsTheInvariant : Prop :=
  ∀ s t : State, BlockInv s → step s = .next t → BlockInv t

/-- R240, R95, R200: from every state that meets the invariant the step answers a next state: every
command completes, legal or not, and none stops the block. -/
def Obligations.EveryStepCompletes : Prop :=
  ∀ s : State, BlockInv s → ∃ t, step s = .next t

/-- R240, R241, R67: a run of some commands ends, after one step for each: all have been taken, each has
got one response, and what the run shows begins with what it showed before (logs 4 and 8). -/
def Obligations.EveryRunAnswersEveryCommand : Prop :=
  ∀ (cs : List Command) (s : State), BlockInv s → s.pending = cs.map HostEvent.command →
    ∃ t rs, Sys2Proof.core.run cs.length s = .next t ∧ t.pending = [] ∧ BlockInv t ∧
      (observation t).1 = (observation s).1 ++ rs ∧ rs.length = cs.length

/-- R36, R206, 92_eei_decisions.md D7: the sticky records let the host check a whole run at its end.
Where no command names a reserved unit, the run had no error exactly if both records are still zero. -/
def Obligations.StickyRecordsShowACleanRun : Prop :=
  ∀ (cs : List Command) (s t : State), CleanRun s → s.g32.err = 0 → s.g64.err = 0 →
    s.pending = cs.map HostEvent.command → (∀ c ∈ cs, unitNumber c ≤ 1) →
    Sys2Proof.core.run cs.length s = .next t →
      (CleanRun t ↔ t.g32.err = 0 ∧ t.g64.err = 0)

/-- R3, R40: a command reads and writes the state of its own generator only.  On two states that agree
on that generator it answers alike, and it leaves the other generator alone. -/
def Obligations.CommandTouchesOnlyItsOwnGenerator : Prop :=
  ∀ (i : Instr) (s t : State), exec i s = .next t →
    t.pending = s.pending ∧
    (i.unit = .g32 → t.g64 = s.g64 ∧
      ∀ s₂ : State, s₂.g32 = s.g32 → ∃ t₂, exec i s₂ = .next t₂ ∧ t₂.g32 = t.g32 ∧
        t₂.g64 = s₂.g64 ∧ ∃ r, t.responses = r :: s.responses ∧ t₂.responses = r :: s₂.responses) ∧
    (i.unit = .g64 → t.g32 = s.g32 ∧
      ∀ s₂ : State, s₂.g64 = s.g64 → ∃ t₂, exec i s₂ = .next t₂ ∧ t₂.g64 = t.g64 ∧
        t₂.g32 = s₂.g32 ∧ ∃ r, t.responses = r :: s.responses ∧ t₂.responses = r :: s₂.responses)

/-- R68: in a run of commands to both generators, each generator ends in the state, and each of its
commands gets the response, that its own commands alone would give. -/
def Obligations.GeneratorsNeverInteract : Prop :=
  ∀ (l : List Instr) (s t : State), execAll l s = .next t →
    (∃ u, execAll (l.filter (fun i => i.unit = .g32)) s = .next u ∧ u.g32 = t.g32 ∧
      answersOf .g32 (l.filter (fun i => i.unit = .g32)) s = answersOf .g32 l s) ∧
    (∃ u, execAll (l.filter (fun i => i.unit = .g64)) s = .next u ∧ u.g64 = t.g64 ∧
      answersOf .g64 (l.filter (fun i => i.unit = .g64)) s = answersOf .g64 l s)

/-- R68: two commands to different generators, in either order, give each the same response and leave
the same generators. -/
def Obligations.CommandsToDifferentGeneratorsCommute : Prop :=
  ∀ (i j : Instr) (s : State), BlockInv s → i.unit ≠ j.unit →
    ∃ a ab b ba ri rj,
      exec i s = .next a ∧ exec j a = .next ab ∧ exec j s = .next b ∧ exec i b = .next ba ∧
      ab.g32 = ba.g32 ∧ ab.g64 = ba.g64 ∧
      ab.responses = rj :: ri :: s.responses ∧ ba.responses = ri :: rj :: s.responses

/-- R43, R238: the contents that reset leaves unspecified, and those that a failed `SEEDARR` or a
`KEYCLR` leaves behind, are never observed.  Two states that differ in them alone take the same step:
the same responses, and again states that differ in such contents alone. -/
def Obligations.UnspecifiedContentsAreNeverObserved : Prop :=
  ∀ s t s' : State, Same s t → step s = .next s' → ∃ t', step t = .next t' ∧ Same s' t'

/-- R40: which commands can write which element.  `STAT` writes none, and no command changes the
capacity. -/
def Obligations.OnlyListedCommandsWrite : Prop :=
  ∀ (i : Instr) (s t : State), exec i s = .next t →
    (i.op ≠ .seed → i.op ≠ .seedarr → i.op ≠ .next →
      t.g32.mt = s.g32.mt ∧ t.g64.mt = s.g64.mt ∧ t.g32.idx = s.g32.idx ∧ t.g64.idx = s.g64.idx) ∧
    (i.op ≠ .seed → i.op ≠ .seedarr → t.g32.seeded = s.g32.seeded ∧ t.g64.seeded = s.g64.seeded) ∧
    (i.op ≠ .keypush → t.g32.key = s.g32.key ∧ t.g64.key = s.g64.key) ∧
    (i.op ≠ .keyclr → i.op ≠ .keypush → t.g32.klen = s.g32.klen ∧ t.g64.klen = s.g64.klen) ∧
    (i.op = .stat → t.g32 = s.g32 ∧ t.g64 = s.g64) ∧
    t.g32.key.length = s.g32.key.length ∧ t.g64.key.length = s.g64.key.length

/-- R35: the lifecycle of `G32`: how each command moves it between Unseeded, Seeded at `N` and Seeded
below `N`.  The bounds are `Safety.GenInv`'s. -/
def Obligations.LifecycleOfG32 : Prop :=
  ∀ (i : Instr) (s : State), GenInv s.g32 → i.unit = .g32 → ∃ t, exec i s = .next t ∧
    (i.op = .seed → t.g32.seeded = true ∧ t.g32.idx.toNat = 624) ∧
    (i.op = .seedarr → s.g32.klen ≠ 0 → t.g32.seeded = true ∧ t.g32.idx.toNat = 624) ∧
    (i.op = .seedarr → s.g32.klen = 0 → t.g32.seeded = false) ∧
    (i.op = .next → t.g32.seeded = s.g32.seeded ∧ (s.g32.seeded = true →
      t.g32.idx.toNat = if s.g32.idx.toNat = 624 then 1 else s.g32.idx.toNat + 1)) ∧
    (i.op = .keyclr ∨ i.op = .keypush ∨ i.op = .stat →
      t.g32.seeded = s.g32.seeded ∧ t.g32.idx = s.g32.idx)

/-- R35: the lifecycle of `G64`.  The bounds are `Safety.GenInv`'s. -/
def Obligations.LifecycleOfG64 : Prop :=
  ∀ (i : Instr) (s : State), GenInv s.g64 → i.unit = .g64 → ∃ t, exec i s = .next t ∧
    (i.op = .seed → t.g64.seeded = true ∧ t.g64.idx.toNat = 312) ∧
    (i.op = .seedarr → s.g64.klen ≠ 0 → t.g64.seeded = true ∧ t.g64.idx.toNat = 312) ∧
    (i.op = .seedarr → s.g64.klen = 0 → t.g64.seeded = false) ∧
    (i.op = .next → t.g64.seeded = s.g64.seeded ∧ (s.g64.seeded = true →
      t.g64.idx.toNat = if s.g64.idx.toNat = 312 then 1 else s.g64.idx.toNat + 1)) ∧
    (i.op = .keyclr ∨ i.op = .keypush ∨ i.op = .stat →
      t.g64.seeded = s.g64.seeded ∧ t.g64.idx = s.g64.idx)

/-- R37, R38: after a `KEYCLR` and the pushes of some words that fit, the key length is their number,
the key buffer begins with those words in order, and nothing else of the block has changed. -/
def Obligations.PushedKeyIsHeldInOrder : Prop :=
  (∀ (key : List Word32) (s : State), key.length ≤ s.g32.key.length → s.g32.key.length ≤ 65535 →
    ∃ t, execAll (.keyclr32 :: key.map Instr.keypush32) s = .next t ∧
      t.g32.klen.toNat = key.length ∧
      t.g32.key = key ++ s.g32.key.drop key.length ∧
      t.g32 = { s.g32 with key := t.g32.key, klen := t.g32.klen } ∧
      t.g64 = s.g64 ∧ t.pending = s.pending) ∧
  (∀ (key : List Word64) (s : State), key.length ≤ s.g64.key.length → s.g64.key.length ≤ 65535 →
    ∃ t, execAll (.keyclr64 :: key.map Instr.keypush64) s = .next t ∧
      t.g64.klen.toNat = key.length ∧
      t.g64.key = key ++ s.g64.key.drop key.length ∧
      t.g64 = { s.g64 with key := t.g64.key, klen := t.g64.klen } ∧
      t.g32 = s.g32 ∧ t.pending = s.pending)

/-- R233: the boot sequences.  Where the key is empty, as after reset, a `SEED`, or the pushes of a
non-empty key that fits and a `SEEDARR`, and then a `NEXT`, all succeed, and the `NEXT` leaves the
index at 1. -/
def Obligations.BootSequencesSucceed : Prop :=
  (∀ (v : Word32) (s : State), ∃ t y, execAll [.seed32 v, .next32] s = .next t ∧
    t.responses = ⟨false, 0, y⟩ :: ⟨false, 0, 0⟩ :: s.responses ∧ t.g32.idx = 1) ∧
  (∀ (v : Word64) (s : State), ∃ t y, execAll [.seed64 v, .next64] s = .next t ∧
    t.responses = ⟨false, 0, y⟩ :: ⟨false, 0, 0⟩ :: s.responses ∧ t.g64.idx = 1) ∧
  (∀ (key : List Word32) (s : State), s.g32.klen = 0 → key ≠ [] →
    key.length ≤ s.g32.key.length → s.g32.key.length ≤ 65535 →
    ∃ t y, execAll (key.map Instr.keypush32 ++ [.seedarr32, .next32]) s = .next t ∧
      t.responses = ⟨false, 0, y⟩ :: (List.replicate (key.length + 1) ⟨false, 0, 0⟩ ++ s.responses) ∧
      t.g32.idx = 1) ∧
  (∀ (key : List Word64) (s : State), s.g64.klen = 0 → key ≠ [] →
    key.length ≤ s.g64.key.length → s.g64.key.length ≤ 65535 →
    ∃ t y, execAll (key.map Instr.keypush64 ++ [.seedarr64, .next64]) s = .next t ∧
      t.responses = ⟨false, 0, y⟩ :: (List.replicate (key.length + 1) ⟨false, 0, 0⟩ ++ s.responses) ∧
      t.g64.idx = 1)

/-- R148, R35: a used-up batch of `G32` is regenerated once and its 624 words are then emitted, tempered,
in ascending order, one a `NEXT32`. -/
def Obligations.BatchOfG32IsEmittedInOrder : Prop :=
  ∀ s : State, s.g32.seeded = true → s.g32.idx = 624 →
    ∃ mt : Vector Word32 624, Regenerated32 s.g32.mt mt ∧
      ∀ m, 1 ≤ m → m ≤ 624 → ∃ idx, idx.toNat = m ∧
        execAll (List.replicate m .next32) s = .next { s with
          g32 := { s.g32 with mt := mt, idx := idx },
          responses := ((List.range m).map (fun k =>
            ⟨false, 0, (tempered32 mt[k]!).setWidth 64⟩)).reverse ++ s.responses }

/-- R178, R35: a used-up batch of `G64` is regenerated once and its 312 words are then emitted, tempered,
in ascending order, one a `NEXT64`. -/
def Obligations.BatchOfG64IsEmittedInOrder : Prop :=
  ∀ s : State, s.g64.seeded = true → s.g64.idx = 312 →
    ∃ mt : Vector Word64 312, Regenerated64 s.g64.mt mt ∧
      ∀ m, 1 ≤ m → m ≤ 312 → ∃ idx, idx.toNat = m ∧
        execAll (List.replicate m .next64) s = .next { s with
          g64 := { s.g64 with mt := mt, idx := idx },
          responses := ((List.range m).map (fun k =>
            ⟨false, 0, (tempered64 mt[k]!).setWidth 64⟩)).reverse ++ s.responses }

/-- R66: `STAT` is repeatable and `NEXT` is not a plain read: two `STAT`s in a row answer alike, and a
`NEXT` on a seeded generator moves its index. -/
def Obligations.StatRepeatsAndNextConsumes : Prop :=
  (∀ s : State, ∃ t u r, exec .stat32 s = .next t ∧ exec .stat32 t = .next u ∧
    u.responses = r :: r :: s.responses) ∧
  (∀ s : State, ∃ t u r, exec .stat64 s = .next t ∧ exec .stat64 t = .next u ∧
    u.responses = r :: r :: s.responses) ∧
  (∀ s : State, s.g32.seeded = true → s.g32.idx.toNat ≤ 624 →
    ∃ t, exec .next32 s = .next t ∧ t.g32.idx ≠ s.g32.idx) ∧
  (∀ s : State, s.g64.seeded = true → s.g64.idx.toNat ≤ 312 →
    ∃ t, exec .next64 s = .next t ∧ t.g64.idx ≠ s.g64.idx)

/-- R33, U10 (log 3): the two stops, which no run reaches: an index past the batch on a seeded
generator, and a key length past the key buffer. -/
def Obligations.UnreachableStatesStop : Prop :=
  (∀ s : State, s.g32.seeded = true → 624 < s.g32.idx.toNat →
    exec .next32 s = .fault .indexBeyondBatch) ∧
  (∀ s : State, s.g64.seeded = true → 312 < s.g64.idx.toNat →
    exec .next64 s = .fault .indexBeyondBatch) ∧
  (∀ (v : Word32) (s : State), s.g32.key.length < s.g32.klen.toNat →
    exec (.keypush32 v) s = .fault .keyLengthBeyondBuffer ∧
    exec .seedarr32 s = .fault .keyLengthBeyondBuffer) ∧
  (∀ (v : Word64) (s : State), s.g64.key.length < s.g64.klen.toNat →
    exec (.keypush64 v) s = .fault .keyLengthBeyondBuffer ∧
    exec .seedarr64 s = .fault .keyLengthBeyondBuffer)

/-- R91, R92: a line that names a pseudo-instruction reads as that pseudo-instruction with its operands,
and a program is its lines in order, each assembled by itself; a line that is rejected rejects the
program.  A blank after the mnemonic and after a comma, empty lines and the rejection of the whole
program are log 5. -/
def Obligations.AssemblyProgramsReadLineByLine : Prop :=
  (∀ (w : List Char) (u : GenId), parseMnemonic w = some (.seedDef, u) →
    parseLine w = some [.seedDef u]) ∧
  (∀ (w : List Char) (u : GenId) (n : Nat), parseMnemonic w = some (.nextN, u) →
    parseLine (w ++ ' ' :: Nat.toDigits 10 n) = some [.nextN u n]) ∧
  (∀ (w : List Char) (u : GenId) (key : List Nat), parseMnemonic w = some (.seedKey, u) →
    parseLine (w ++ ' ' :: List.intercalate [',', ' '] (key.map (Nat.toDigits 10))) =
      some [.seedKey u key]) ∧
  (∀ (t : List Char) (l : Source), '\n' ∉ t → parseLine t = some [l] →
    assembleText t = assembleSource l) ∧
  (∀ t : List Char, '\n' ∉ t → parseLine t = some [] → assembleText t = some []) ∧
  (∀ t : List Char, '\n' ∉ t → parseLine t = none → assembleText t = none) ∧
  (∀ t rest : List Char, '\n' ∉ t → assembleText (t ++ '\n' :: rest) =
    match assembleText t, assembleText rest with
    | some a, some b => some (a ++ b)
    | _, _ => none)
end

