-- ==== Sys2Proof/Laws/Assembler.lean ====
section
/-! SUPPORT. The assembler's text functions, each with what it does said once: lists of optional values,
splitting and trimming, digits, mnemonics, one line and a program. -/

namespace Sys2Proof.Laws

open Sys2Proof Sys2Proof.Machine

variable {α β : Type}

/-! ### Lists of optional values -/

theorem allSome_map_some (f : α → β) (l : List α) :
    allSome (l.map (fun x => some (f x))) = some (l.map f) := by
  induction l with
  | nil => rfl
  | cons x l ih => simp [allSome, ih]

/-- The values of two lists are there exactly if those of each are. -/
theorem allSome_append (l m : List (Option α)) :
    allSome (l ++ m) = (allSome l).bind (fun a => (allSome m).map (a ++ ·)) := by
  induction l with
  | nil => simp [allSome]
  | cons x l ih =>
    cases x with
    | none => rfl
    | some x =>
      simp only [List.cons_append, allSome, ih]
      cases allSome l <;> cases allSome m <;> rfl

/-- A list with a missing value has no values; otherwise every element is there. -/
theorem mem_of_allSome {l : List (Option α)} {a : List α} (h : allSome l = some a) {x : Option α}
    (hx : x ∈ l) : ∃ y, x = some y := by
  induction l generalizing a with
  | nil => cases hx
  | cons y l ih =>
    cases y with
    | none => cases h
    | some y =>
      rcases List.mem_cons.1 hx with rfl | hx
      · exact ⟨y, rfl⟩
      · simp only [allSome, Option.map_eq_some_iff] at h
        obtain ⟨b, hb, -⟩ := h
        exact ih hb hx

/-! ### Splitting and trimming -/

theorem splitAtChar_free {sep : Char} {t : List Char} (h : sep ∉ t) : splitAtChar sep t = [t] := by
  induction t with
  | nil => rfl
  | cons c t ih =>
    rw [List.mem_cons, not_or] at h
    simp only [splitAtChar, if_neg (Ne.symm h.1), ih h.2]

theorem splitAtChar_sep {sep : Char} {t : List Char} (h : sep ∉ t) (rest : List Char) :
    splitAtChar sep (t ++ sep :: rest) = t :: splitAtChar sep rest := by
  induction t with
  | nil => simp [splitAtChar]
  | cons c t ih =>
    rw [List.mem_cons, not_or] at h
    simp only [List.cons_append, splitAtChar, if_neg (Ne.symm h.1), ih h.2]

/-- Splitting undoes joining: the pieces come back, the first as it is, each other with the blank that
was put before it. -/
theorem splitAtChar_intercalate {d : List Char} {ds : List (List Char)}
    (h : ∀ x ∈ d :: ds, ',' ∉ x) :
    splitAtChar ',' (List.intercalate [',', ' '] (d :: ds)) = d :: ds.map (' ' :: ·) := by
  induction ds generalizing d with
  | nil => simpa using splitAtChar_free (h d (by simp))
  | cons e ds ih =>
    have he : List.intercalate [',', ' '] (d :: e :: ds) =
        d ++ ',' :: ' ' :: List.intercalate [',', ' '] (e :: ds) := by
      simp [List.intercalate, List.intersperse]
    rw [he, splitAtChar_sep (h d (by simp))]
    have hs := ih (d := e) (fun x hx => h x (by simp only [List.mem_cons] at hx ⊢; tauto))
    simp [splitAtChar, hs]

/-- A text that neither begins nor ends with a blank is left as it is. -/
theorem trimBlanks_eq_self {t : List Char} (h₁ : ∀ c, t.head? = some c → isBlank c = false)
    (h₂ : ∀ c, t.getLast? = some c → isBlank c = false) : trimBlanks t = t := by
  have hd : ∀ l : List Char, (∀ c, l.head? = some c → isBlank c = false) →
      l.dropWhile isBlank = l := by
    intro l hl
    cases l with
    | nil => rfl
    | cons c l => simp [List.dropWhile, hl c rfl]
  unfold trimBlanks
  rw [hd t h₁, hd t.reverse (by simpa using h₂), List.reverse_reverse]

/-- A blank in front is dropped. -/
theorem trimBlanks_space (t : List Char) : trimBlanks (' ' :: t) = trimBlanks t := rfl

/-- Text without blanks is left as it is. -/
theorem trimBlanks_solid {t : List Char} (h : ∀ c ∈ t, isBlank c = false) : trimBlanks t = t :=
  trimBlanks_eq_self (fun c hc => h c (List.mem_of_mem_head? hc))
    (fun c hc => h c (List.mem_of_getLast? hc))

/-! ### Numbers -/

theorem digitsValue_snoc {b m v : Nat} {ds : List Char} {d : Char} (h : digitsValue b ds = some m)
    (hd : digitValue b d = some v) : digitsValue b (ds ++ [d]) = some (m * b + v) := by
  unfold digitsValue at *
  rw [List.map_append, List.map_cons, List.map_nil, hd, allSome_append]
  rcases hh : allSome (ds.map (digitValue b)) with _ | vs
  · rw [hh] at h; cases h
  · rw [hh] at h; simp at h; simp [allSome, h]

theorem digitValue_digitChar {b d : Nat} (hb : b = 10 ∨ b = 16) (h : d < b) :
    digitValue b d.digitChar = some d := by
  rcases hb with rfl | rfl <;> interval_cases d <;> decide

/-- The digits of a number, in decimal or hexadecimal, write that number. -/
theorem digitsValue_toDigits {b : Nat} (hb : b = 10 ∨ b = 16) (n : Nat) :
    digitsValue b (Nat.toDigits b n) = some n := by
  have h1 : 1 < b := by omega
  induction n using Nat.strong_induction_on with
  | _ n ih =>
    rcases Nat.lt_or_ge n b with h | h
    · rw [Nat.toDigits_of_lt_base h]
      simp [digitsValue, digitValue_digitChar hb h, allSome]
    · rw [Nat.toDigits_of_base_le h1 h,
        digitsValue_snoc (ih _ (Nat.div_lt_self (by omega) h1))
          (digitValue_digitChar hb (Nat.mod_lt _ (by omega))), Nat.mul_comm, Nat.div_add_mod]

/-- What is read as digits is made of digits. -/
theorem digitValue_of_digitsValue {b v : Nat} {ds : List Char} (h : digitsValue b ds = some v)
    {c : Char} (hc : c ∈ ds) : ∃ d, digitValue b c = some d := by
  simp only [digitsValue, Option.map_eq_some_iff] at h
  obtain ⟨vs, hv, -⟩ := h
  exact mem_of_allSome hv (List.mem_map_of_mem hc)

/-! ### Mnemonics -/

theorem upperCase_eq_toUpper (c : Char) : upperCase c = c.toUpper := by
  unfold upperCase Char.toUpper
  by_cases h : 'a' ≤ c ∧ c ≤ 'z'
  · have h1 : 97 ≤ c.toNat := h.1
    have h2 : c.toNat ≤ 122 := h.2
    have hc : c = Char.ofNat c.toNat := (Char.ofNat_toNat c).symm
    generalize c.toNat = n at *
    subst hc
    interval_cases n <;> decide
  · have h' : ¬ ('a'.val ≤ c.val ∧ c.val ≤ 'z'.val) := h
    rw [if_neg h, dif_neg h']

theorem upperCase_toLower (c : Char) : upperCase c.toLower = upperCase c := by
  by_cases h : c.val ≥ 'A'.val ∧ c.val ≤ 'Z'.val
  · have h1 : 65 ≤ c.toNat := h.1
    have h2 : c.toNat ≤ 90 := h.2
    have hc : c = Char.ofNat c.toNat := (Char.ofNat_toNat c).symm
    generalize c.toNat = n at *
    subst hc
    interval_cases n <;> decide
  · unfold Char.toLower; rw [dif_neg h]

/-- What a lookup finds stands in the table. -/
theorem mem_of_lookup_some [BEq α] [LawfulBEq α] {l : List (α × β)} {a : α} {b : β}
    (h : l.lookup a = some b) : (a, b) ∈ l := by
  induction l with
  | nil => cases h
  | cons p l ih =>
    obtain ⟨x, y⟩ := p
    rw [List.lookup_cons] at h
    split at h
    · next hx => rw [eq_of_beq hx, Option.some.inj h]; exact List.mem_cons_self
    · exact List.mem_cons_of_mem _ (ih h)

/-- A mnemonic's letters and digits, in capitals, are an entry of the table and a width. -/
theorem parseMnemonic_some {w : List Char} {r : Stem × GenId} (h : parseMnemonic w = some r) :
    ∃ e ∈ stemTable, w.map upperCase = e.1 ++ widthSuffix r.2 ∧ e.2 = r.1 := by
  obtain ⟨stem, u⟩ := r
  have hm := mem_of_lookup_some h
  rw [List.mem_flatMap] at hm
  obtain ⟨e, he, hm⟩ := hm
  refine ⟨e, he, ?_⟩
  simp only [List.mem_cons, List.not_mem_nil, or_false, Prod.mk.injEq] at hm
  rcases hm with ⟨h1, h2, h3⟩ | ⟨h1, h2, h3⟩ <;> subst h3 <;> exact ⟨h1, h2.symm⟩

/-- A mnemonic is a word: not empty, and without a blank or a semicolon. -/
theorem parseMnemonic_word {w : List Char} {r : Stem × GenId} (h : parseMnemonic w = some r) :
    w ≠ [] ∧ ∀ c ∈ w, isBlank c = false ∧ c ≠ ';' := by
  obtain ⟨e, he, hw, -⟩ := parseMnemonic_some h
  have hall : ∀ e ∈ stemTable, ∀ u, ∀ c ∈ e.1 ++ widthSuffix u, isBlank c = false ∧ c ≠ ';' := by
    intro e he u
    simp only [stemTable, List.mem_cons, List.not_mem_nil, or_false] at he
    cases u <;> rcases he with rfl | rfl | rfl | rfl | rfl | rfl | rfl | rfl | rfl <;>
      simp [widthSuffix, isBlank]
  refine ⟨?_, fun c hc => ?_⟩
  · rintro rfl
    have : e.1 ++ widthSuffix r.2 = [] := hw.symm
    cases hr : r.2 <;> rw [hr] at this <;> simp [widthSuffix] at this
  · have hu := hall e he r.2 (upperCase c) (hw ▸ List.mem_map_of_mem hc)
    refine ⟨?_, ?_⟩
    · by_contra hb
      simp only [isBlank, Bool.not_eq_false, Bool.or_eq_true, beq_iff_eq] at hb
      rcases hb with (rfl | rfl) | rfl <;> exact absurd hu.1 (by decide)
    · rintro rfl
      exact absurd hu.2 (by decide)

end Sys2Proof.Laws
end

