-- ==== Sys2Proof/Laws/Storage.lean ====
section
/-! SUPPORT. The array of a generator and the loops over it: read after write, when two arrays are
equal, and one induction for each kind of loop. -/

namespace Sys2Proof.Laws

open Sys2Proof.Machine

variable {w n : Nat} {α : Type}

theorem readWord_of_lt (mt : Vector (BitVec w) n) {k : Nat} (h : k < n) :
    readWord mt k = mt[k] := by
  simp [readWord, h]

theorem getElem!_eq_readWord (mt : Vector (BitVec w) n) (k : Nat) : mt[k]! = readWord mt k := by
  by_cases h : k < n
  · simp [readWord, h]
  · simp [readWord, h]
    rfl

/-- A read after a write: the word written at its own place, every other word as before. -/
theorem readWord_writeWord (mt : Vector (BitVec w) n) (k j : Nat) (v : BitVec w) :
    readWord (writeWord mt k v) j = if j = k ∧ k < n then v else readWord mt j := by
  unfold writeWord
  split
  · next hk =>
    by_cases hj : j < n
    · simp only [readWord_of_lt _ hj, Vector.getElem_set, hk, and_true]
      by_cases hjk : k = j
      · simp [hjk]
      · simp [hjk, Ne.symm hjk]
    · have : j ≠ k := by omega
      simp [readWord, hj, this]
  · next hk => simp [hk]

theorem readWord_writeWord_self (mt : Vector (BitVec w) n) {k : Nat} (h : k < n) (v : BitVec w) :
    readWord (writeWord mt k v) k = v := by
  simp [readWord_writeWord, h]

theorem readWord_writeWord_other (mt : Vector (BitVec w) n) {k j : Nat} (h : j ≠ k)
    (v : BitVec w) : readWord (writeWord mt k v) j = readWord mt j := by
  simp [readWord_writeWord, h]

/-- Arrays with the same words are the same array. -/
theorem array_ext {a b : Vector (BitVec w) n}
    (h : ∀ k, k < n → readWord a k = readWord b k) : a = b := by
  ext1 k hk
  simpa [readWord_of_lt _ hk] using h k hk

/-- What a loop body keeps from each index to the next holds of the whole loop. -/
theorem forRange_induct (a : Nat) (body : Nat → α → α) (P : Nat → α → Prop) (x : α)
    (h0 : P 0 x) (hs : ∀ m y, P m y → P (m + 1) (body (a + m) y)) (m : Nat) :
    P m (forRange a body m x) := by
  induction m with
  | zero => exact h0
  | succ m ih => exact hs m _ ih

/-- What a loop body keeps from each step to the next holds of the whole loop. -/
theorem repeatStep_induct (body : α → α) (P : Nat → α → Prop) (x : α)
    (h0 : P 0 x) (hs : ∀ m y, P m y → P (m + 1) (body y)) (m : Nat) :
    P m (repeatStep body m x) := by
  induction m with
  | zero => exact h0
  | succ m ih => exact hs m _ ih

end Sys2Proof.Laws
end

