-- ==== Sys2Proof/Laws/Generator.lean ====
section
/-! SUPPORT. What the regeneration leaves in the array (R140, R141, R170, R171). -/

namespace Sys2Proof.Laws

open Sys2Proof.Machine

variable {w n : Nat}

/-- A step of the twist writes one word. -/
theorem twistStep_readWord (c : Params w n) (k j : Nat) (mt : Vector (BitVec w) n) (hk : k < n) :
    readWord (twistStep c k mt) j =
      if j = k then
        twistWord c (readWord mt k) (readWord mt ((k + 1) % n)) (readWord mt ((k + c.m) % n))
      else readWord mt j := by
  simp [twistStep, readWord_writeWord, hk]

/-- After `m` steps, a word not yet reached is the old one. -/
theorem twist_ahead (c : Params w n) (mt : Vector (BitVec w) n) (m j : Nat) (hm : m ≤ n)
    (hj : m ≤ j) : readWord (forRange 0 (twistStep c) m mt) j = readWord mt j := by
  induction m with
  | zero => rfl
  | succ m ih =>
    simp only [forRange, twistStep_readWord _ _ _ _ (by omega : 0 + m < n)]
    rw [if_neg (by omega)]
    exact ih (by omega) (by omega)

/-- A word already reached stays as its step left it. -/
theorem twist_behind (c : Params w n) (mt : Vector (BitVec w) n) (m j : Nat) (hm : m ≤ n)
    (hj : j < m) :
    readWord (forRange 0 (twistStep c) m mt) j = readWord (twist c mt) j := by
  have h : ∀ k, m + k ≤ n → readWord (forRange 0 (twistStep c) (m + k) mt) j =
      readWord (forRange 0 (twistStep c) m mt) j := by
    intro k
    induction k with
    | zero => intro _; rfl
    | succ k ih =>
      intro hk
      rw [← Nat.add_assoc]
      simp only [forRange, twistStep_readWord _ _ _ _ (by omega : 0 + (m + k) < n)]
      rw [if_neg (by omega)]
      exact ih (by omega)
  have := h (n - m) (by omega)
  rw [Nat.add_sub_cancel' hm] at this
  rw [twist, this]

/-- R140, R141: each new word, made in place.  Its neighbour is old but for the last word, whose
neighbour is the new first word; its far word is new once `k + M` has gone round. -/
theorem twist_words (c : Params w n) (mt : Vector (BitVec w) n) (hm1 : 1 ≤ c.m) (hmn : c.m < n)
    (k : Nat) (hk : k < n) :
    readWord (twist c mt) k =
      twistWord c (readWord mt k)
        (if k = n - 1 then readWord (twist c mt) 0 else readWord mt (k + 1))
        (if k < n - c.m then readWord mt (k + c.m)
          else readWord (twist c mt) (k - (n - c.m))) := by
  rw [← twist_behind c mt (k + 1) k hk (by omega)]
  simp only [forRange, Nat.zero_add]
  rw [twistStep_readWord _ _ _ _ hk, if_pos rfl, twist_ahead c mt k k (by omega) (le_refl k)]
  congr 1
  · split
    · next h =>
      have hz : (k + 1) % n = 0 := by rw [h, Nat.sub_add_cancel (by omega), Nat.mod_self]
      rw [hz, twist_behind c mt k 0 (by omega) (by omega)]
    · next h =>
      rw [Nat.mod_eq_of_lt (by omega : k + 1 < n), twist_ahead c mt k _ (by omega) (by omega)]
  · split
    · next h =>
      rw [Nat.mod_eq_of_lt (by omega : k + c.m < n), twist_ahead c mt k _ (by omega) (by omega)]
    · next h =>
      have hz : (k + c.m) % n = k - (n - c.m) := by
        rw [Nat.mod_eq_sub_mod (by omega), Nat.mod_eq_of_lt (by omega)]
        omega
      rw [hz, twist_behind c mt k _ (by omega) (by omega)]

end Sys2Proof.Laws
end

