-- ==== Sys2Proof/Laws/Seeding.lean ====
section
/-! SUPPORT. What the scalar fill and the array weave leave in the array (40_seeding_pipelines.md).

The weave is followed step by step through both phases: `Walked b x m v` says that after `m` steps,
of which step `t` wrote `x t`, the array is the baseline `b` overwritten by the latest of them. -/

namespace Sys2Proof.Laws

open Sys2Proof.Machine

variable {w n : Nat}

/-! ### The scalar fill (R111) -/

theorem fillStep_readWord (c : Params w n) (i j : Nat) (mt : Vector (BitVec w) n) (h : i < n) :
    readWord (fillStep c i mt) j =
      if j = i then seedMul c (readWord mt (i - 1)) i else readWord mt j := by
  simp [fillStep, readWord_writeWord, h]

/-- After `m` steps of the fill the first `m + 1` words obey R111's recurrence. -/
theorem fill_prefix (c : Params w n) (s : BitVec w) (mt : Vector (BitVec w) n) (m : Nat)
    (hm : m < n) :
    let out := forRange 1 (fillStep c) m (writeWord mt 0 s)
    readWord out 0 = s ∧
      ∀ i, 1 ≤ i → i ≤ m → readWord out i = seedMul c (readWord out (i - 1)) i := by
  induction m with
  | zero => exact ⟨readWord_writeWord_self _ hm _, fun i h1 h2 => by omega⟩
  | succ m ih =>
    obtain ⟨h0, hs⟩ := ih (by omega)
    have hlt : 1 + m < n := by omega
    refine ⟨?_, fun i h1 h2 => ?_⟩
    · simp only [forRange, fillStep_readWord _ _ _ _ hlt]
      rw [if_neg (by omega)]; exact h0
    · simp only [forRange, fillStep_readWord _ _ _ _ hlt]
      rw [if_neg (by omega : ¬ i - 1 = 1 + m)]
      by_cases hi : i = 1 + m
      · subst hi; simp
      · rw [if_neg hi]; exact hs i h1 (by omega)

/-- R111: the first word is the seed, and each other word is the multiplier pipeline's of the word
before it. -/
theorem fill_words (c : Params w n) (s : BitVec w) (mt : Vector (BitVec w) n) (hn : 0 < n) :
    readWord (fill c s mt) 0 = s ∧
      ∀ i, 1 ≤ i → i < n →
        readWord (fill c s mt) i = seedMul c (readWord (fill c s mt) (i - 1)) i := by
  unfold fill
  obtain ⟨h0, hs⟩ := fill_prefix c s mt (n - 1) (by omega)
  exact ⟨h0, fun i h1 h2 => hs i h1 (by omega)⟩

/-- R119: what the array held before does not matter to the fill. -/
theorem fill_forgets (c : Params w n) (s : BitVec w) (mt mt' : Vector (BitVec w) n) :
    fill c s mt = fill c s mt' := by
  refine array_ext fun k hk => ?_
  have hn : 0 < n := by omega
  obtain ⟨h0, hs⟩ := fill_words c s mt hn
  obtain ⟨h0', hs'⟩ := fill_words c s mt' hn
  induction k with
  | zero => rw [h0, h0']
  | succ k ih => rw [hs _ (by omega) hk, hs' _ (by omega) hk]; simp [ih (by omega)]

/-! ### The pointers of the weave (R114, R115) -/

/-- The next value of a pointer that starts at 1 and wraps at `n`. -/
theorem one_add_mod_succ (m d : Nat) (hd : 0 < d) :
    1 + (m + 1) % d = if 1 + m % d = d then 1 else 1 + m % d + 1 := by
  have hlt := Nat.mod_lt m hd
  have hsucc : (m + 1) % d = if m % d + 1 = d then 0 else m % d + 1 := by
    rw [← Nat.mod_add_mod]
    split
    · next h => rw [h, Nat.mod_self]
    · exact Nat.mod_eq_of_lt (by omega)
  rw [hsucc]
  split <;> split <;> omega

@[simp] theorem advanceJ_i (len : Nat) (v : WeaveVars w n) : (advanceJ len v).i = v.i := by
  unfold advanceJ; split <;> rfl

@[simp] theorem advanceJ_mt (len : Nat) (v : WeaveVars w n) : (advanceJ len v).mt = v.mt := by
  unfold advanceJ; split <;> rfl

@[simp] theorem advanceI_j (v : WeaveVars w n) : (advanceI v).j = v.j := by
  unfold advanceI; split <;> rfl

theorem advanceI_i (v : WeaveVars w n) :
    (advanceI v).i = if v.i + 1 = n then 1 else v.i + 1 := by
  unfold advanceI; split <;> rfl

theorem advanceJ_j (len : Nat) (v : WeaveVars w n) :
    (advanceJ len v).j = if v.j + 1 = len then 0 else v.j + 1 := by
  unfold advanceJ; split <;> rfl

theorem advanceI_pointer (hn : 2 ≤ n) (m : Nat) (v : WeaveVars w n)
    (h : v.i = 1 + m % (n - 1)) : (advanceI v).i = 1 + (m + 1) % (n - 1) := by
  rw [advanceI_i, one_add_mod_succ m (n - 1) (by omega), h]
  split <;> split <;> omega

theorem advanceJ_pointer (len m : Nat) (hl : 1 ≤ len) (v : WeaveVars w n)
    (h : v.j = m % len) : (advanceJ len v).j = (m + 1) % len := by
  have := one_add_mod_succ m len hl
  rw [advanceJ_j, h]
  revert this
  split <;> split <;> omega

/-- R115: where the key phase's pointers stand after `m` steps. -/
theorem keyStep_pointers (c : Params w n) (hn : 2 ≤ n) (key : List (BitVec w)) (len : Nat)
    (hl : 1 ≤ len) (mt : Vector (BitVec w) n) (m : Nat) :
    (repeatStep (keyStep c key len) m (weaveStart c mt)).i = 1 + m % (n - 1) ∧
      (repeatStep (keyStep c key len) m (weaveStart c mt)).j = m % len := by
  refine repeatStep_induct (keyStep c key len)
    (fun m v => v.i = 1 + m % (n - 1) ∧ v.j = m % len) _
    (by simp [weaveStart]) (fun m v hv => ⟨?_, ?_⟩) m
  · rw [keyStep, advanceJ_i]
    exact advanceI_pointer hn m _ hv.1
  · exact advanceJ_pointer len m hl _ (by simpa using hv.2)

/-- The second phase moves `i` on from wherever it stood. -/
theorem secondStep_pointer (c : Params w n) (hn : 2 ≤ n) (a : Nat) (v : WeaveVars w n)
    (hv : v.i = 1 + a % (n - 1)) (m : Nat) :
    (repeatStep (secondStep c) m v).i = 1 + (a + m) % (n - 1) :=
  repeatStep_induct (secondStep c) (fun m v => v.i = 1 + (a + m) % (n - 1)) _
    (by simpa using hv) (fun m _ hu => advanceI_pointer hn (a + m) _ hu) m

/-! ### The words of the weave (R114) -/

/-- The array after `m` steps, step `t` of which wrote `x t` at `1 + t mod (n - 1)`, over the
baseline `b`. -/
structure Walked (b : Vector (BitVec w) n) (x : Nat → BitVec w) (m : Nat)
    (v : WeaveVars w n) : Prop where
  pointer : v.i = 1 + m % (n - 1)
  first   : m % (n - 1) = 0 → readWord v.mt 0 = if m = 0 then readWord b 0 else x (m - 1)
  latest  : ∀ t, t < m → m ≤ t + (n - 1) → readWord v.mt (1 + t % (n - 1)) = x t
  fresh   : ∀ q, m < q → q < n → readWord v.mt q = readWord b q

/-- Two different steps less than a round apart write different words. -/
theorem step_places_differ {d t m : Nat} (h1 : t < m) (h2 : m < t + d) : t % d ≠ m % d := by
  intro h
  obtain ⟨k, hk⟩ := (Nat.modEq_iff_dvd' (le_of_lt h1)).mp h
  rcases Nat.eq_zero_or_pos k with rfl | hk0
  · omega
  · have := Nat.le_mul_of_pos_right d hk0
    omega

/-- What the next step reads: at its own place the baseline's word, or the word a round ago; before
it the baseline's first word, or the word just written. -/
theorem Walked.reads {b : Vector (BitVec w) n} {x : Nat → BitVec w} {m : Nat}
    {v : WeaveVars w n} (hn : 2 ≤ n) (h : Walked b x m v) :
    readWord v.mt v.i = (if m < n - 1 then readWord b (m + 1) else x (m - (n - 1))) ∧
      readWord v.mt (v.i - 1) = (if m = 0 then readWord b 0 else x (m - 1)) := by
  have hd : 0 < n - 1 := by omega
  rw [h.pointer]
  constructor
  · split
    · next hm => rw [Nat.mod_eq_of_lt hm, h.fresh _ (by omega) (by omega), Nat.add_comm]
    · next hm =>
      have := h.latest (m - (n - 1)) (by omega) (by omega)
      rwa [← Nat.mod_eq_sub_mod (by omega : n - 1 ≤ m)] at this
  · by_cases h0 : m % (n - 1) = 0
    · simpa [h0] using h.first h0
    · have hm : m ≠ 0 := by rintro rfl; simp at h0
      have hp := one_add_mod_succ (m - 1) (n - 1) hd
      rw [Nat.sub_add_cancel (by omega : 1 ≤ m)] at hp
      have hlt := Nat.mod_lt (m - 1) hd
      have := h.latest (m - 1) (by omega) (by omega)
      rw [if_neg hm, ← this]
      congr 1
      revert hp
      split <;> omega

/-- One step writes `x m` and advances. -/
theorem Walked.step {b : Vector (BitVec w) n} {x : Nat → BitVec w} {m : Nat}
    {v : WeaveVars w n} (hn : 2 ≤ n) (h : Walked b x m v) :
    Walked b x (m + 1) (advanceI { v with mt := writeWord v.mt v.i (x m) }) := by
  have hd : 0 < n - 1 := by omega
  have hlt := Nat.mod_lt m hd
  have hi := h.pointer
  have hin : v.i < n := by omega
  have hwrite : ∀ q, q ≠ 0 →
      readWord (advanceI { v with mt := writeWord v.mt v.i (x m) }).mt q =
        if q = v.i then x m else readWord v.mt q := by
    intro q hq
    unfold advanceI
    split <;> simp [readWord_writeWord, hin, hq]
  refine ⟨advanceI_pointer hn m _ hi, fun h0 => ?_, fun t ht1 ht2 => ?_, fun q hq1 hq2 => ?_⟩
  · have hp := one_add_mod_succ m (n - 1) hd
    have hwrap : v.i + 1 = n := by
      revert hp; split <;> omega
    have hlast : n - 1 = v.i := by omega
    simp only [advanceI, hwrap, if_true]
    rw [readWord_writeWord_self _ (by omega), hlast, readWord_writeWord_self _ hin]
    simp
  · rw [hwrite _ (by omega), hi]
    by_cases htm : t = m
    · simp [htm]
    · have := step_places_differ (d := n - 1) (t := t) (m := m) (by omega) (by omega)
      rw [if_neg (by omega)]
      exact h.latest t (by omega) (by omega)
  · rw [hwrite q (by omega), hi, Nat.mod_eq_of_lt (by omega : m < n - 1), if_neg (by omega)]
    exact h.fresh q (by omega) hq2

/-- The variables of the weave after `m` steps of its two phases together. -/
def weaveAt (c : Params w n) (key : List (BitVec w)) (len : Nat) (mt : Vector (BitVec w) n)
    (m : Nat) : WeaveVars w n :=
  if m ≤ max n len then repeatStep (keyStep c key len) m (weaveStart c mt)
  else repeatStep (secondStep c) (m - max n len) (keyPhase c key len (weaveStart c mt))

/-- The word that step `t` of the weave writes. -/
def weaveWord (c : Params w n) (key : List (BitVec w)) (len : Nat) (mt : Vector (BitVec w) n)
    (t : Nat) : BitVec w :=
  let v := weaveAt c key len mt t
  if t < max n len then
    mix1 c (readWord v.mt v.i) (readWord v.mt (v.i - 1)) (keyWord key v.j) v.j
  else mix2 c (readWord v.mt v.i) (readWord v.mt (v.i - 1)) v.i

theorem weaveAt_succ (c : Params w n) (key : List (BitVec w)) (len : Nat)
    (mt : Vector (BitVec w) n) (m : Nat) :
    (weaveAt c key len mt (m + 1)).mt =
        (advanceI { weaveAt c key len mt m with
          mt := writeWord (weaveAt c key len mt m).mt (weaveAt c key len mt m).i
            (weaveWord c key len mt m) }).mt ∧
      (weaveAt c key len mt (m + 1)).i =
        (advanceI { weaveAt c key len mt m with
          mt := writeWord (weaveAt c key len mt m).mt (weaveAt c key len mt m).i
            (weaveWord c key len mt m) }).i := by
  by_cases hm : m < max n len
  · have h1 : weaveAt c key len mt (m + 1) = keyStep c key len (weaveAt c key len mt m) := by
      simp only [weaveAt, if_pos (by omega : m + 1 ≤ max n len), if_pos (by omega : m ≤ max n len),
        repeatStep]
    rw [h1]
    simp only [keyStep, weaveWord, hm, if_true, advanceJ_mt, advanceJ_i, and_self]
  · have h1 : weaveAt c key len mt (m + 1) = secondStep c (weaveAt c key len mt m) := by
      rcases Nat.lt_or_ge (max n len) m with h | h
      · simp only [weaveAt, if_neg (by omega : ¬ m + 1 ≤ max n len),
          if_neg (by omega : ¬ m ≤ max n len), Nat.succ_sub (by omega : max n len ≤ m), repeatStep]
      · have hme : m = max n len := by omega
        subst hme
        simp [weaveAt, repeatStep, keyPhase]
    rw [h1]
    simp only [secondStep, weaveWord, hm, if_false, and_self]

/-- The weave, followed through both phases. -/
theorem weaveAt_walked (c : Params w n) (hn : 2 ≤ n) (key : List (BitVec w)) (len : Nat)
    (mt : Vector (BitVec w) n) (m : Nat) :
    Walked (fill c c.base mt) (weaveWord c key len mt) m (weaveAt c key len mt m) := by
  induction m with
  | zero =>
    simp only [weaveAt, Nat.zero_le, if_true, repeatStep, weaveStart]
    exact ⟨by simp, fun _ => by simp, fun t ht => by omega, fun q _ _ => rfl⟩
  | succ m ih =>
    have hs := ih.step hn
    obtain ⟨hmt, hi⟩ := weaveAt_succ c key len mt m
    exact ⟨by rw [hi]; exact hs.pointer, by rw [hmt]; exact hs.first,
      by rw [hmt]; exact hs.latest, by rw [hmt]; exact hs.fresh⟩

/-- R114, as a recurrence: the word each step of the weave writes. -/
theorem weaveWord_recurrence (c : Params w n) (hn : 2 ≤ n) (key : List (BitVec w)) (len : Nat)
    (hl : 1 ≤ len) (mt : Vector (BitVec w) n) (t : Nat) :
    weaveWord c key len mt t =
      (let cur := if t < n - 1 then readWord (fill c c.base mt) (t + 1)
          else weaveWord c key len mt (t - (n - 1))
       let prev := if t = 0 then readWord (fill c c.base mt) 0 else weaveWord c key len mt (t - 1)
       if t < max n len then mix1 c cur prev (keyWord key (t % len)) (t % len)
       else mix2 c cur prev (1 + t % (n - 1))) := by
  have hw := weaveAt_walked c hn key len mt t
  obtain ⟨hcur, hprev⟩ := hw.reads hn
  rw [weaveWord]
  simp only [hcur, hprev]
  split
  · next ht =>
    have hj : (weaveAt c key len mt t).j = t % len := by
      simp only [weaveAt, if_pos (by omega : t ≤ max n len)]
      exact (keyStep_pointers c hn key len hl mt t).2
    rw [hj]
  · rw [hw.pointer]

theorem weave_eq (c : Params w n) (hn : 2 ≤ n) (key : List (BitVec w)) (len : Nat)
    (mt : Vector (BitVec w) n) :
    weave c key len mt = writeWord (weaveAt c key len mt (max n len + (n - 1))).mt 0 c.top := by
  rw [weaveAt, if_neg (by omega), Nat.add_sub_cancel_left, weave, secondPhase]

/-- R114: what the weave leaves: the finalisation word first, and in every other place the word that
the second phase wrote there. -/
theorem weave_words (c : Params w n) (hn : 2 ≤ n) (key : List (BitVec w)) (len : Nat)
    (mt : Vector (BitVec w) n) :
    readWord (weave c key len mt) 0 = c.top ∧
      ∀ t, max n len ≤ t → t < max n len + (n - 1) →
        readWord (weave c key len mt) (1 + t % (n - 1)) = weaveWord c key len mt t := by
  rw [weave_eq c hn]
  refine ⟨readWord_writeWord_self _ (by omega) _, fun t h1 h2 => ?_⟩
  rw [readWord_writeWord_other _ (by omega)]
  exact (weaveAt_walked c hn key len mt _).latest t h2 (by omega)

/-- R119: the weave reads only the key words in use, and nothing the array held before. -/
theorem weave_forgets (c : Params w n) (key key' : List (BitVec w)) (len : Nat)
    (mt mt' : Vector (BitVec w) n) (hl : 1 ≤ len) (hn : 2 ≤ n)
    (hk : ∀ j, j < len → keyWord key j = keyWord key' j) :
    weave c key len mt = weave c key' len mt' := by
  have hx : ∀ t, weaveWord c key len mt t = weaveWord c key' len mt' t := by
    intro t
    induction t using Nat.strong_induction_on with
    | _ t ih =>
      rw [weaveWord_recurrence c hn key len hl, weaveWord_recurrence c hn key' len hl,
        fill_forgets c c.base mt mt', hk _ (Nat.mod_lt t hl)]
      have h1 : ¬ t < n - 1 → weaveWord c key len mt (t - (n - 1)) =
          weaveWord c key' len mt' (t - (n - 1)) := fun h => ih _ (by omega)
      have h2 : ¬ t = 0 → weaveWord c key len mt (t - 1) =
          weaveWord c key' len mt' (t - 1) := fun h => ih _ (by omega)
      by_cases a : t < n - 1 <;> by_cases b : t = 0 <;> simp_all
  refine array_ext fun k hkn => ?_
  obtain ⟨a0, aw⟩ := weave_words c hn key len mt
  obtain ⟨b0, bw⟩ := weave_words c hn key' len mt'
  rcases Nat.eq_zero_or_pos k with rfl | hpos
  · rw [a0, b0]
  · have hd : 0 < n - 1 := by omega
    obtain ⟨t, ht1, ht2, ht3⟩ : ∃ t, max n len ≤ t ∧ t < max n len + (n - 1) ∧
        1 + t % (n - 1) = k := by
      let S := max n len
      have hS := Nat.mod_lt S hd
      by_cases hle : S % (n - 1) ≤ k - 1
      · refine ⟨S + (k - 1 - S % (n - 1)), by omega, by omega, ?_⟩
        rw [Nat.add_mod, Nat.mod_eq_of_lt (by omega : k - 1 - S % (n - 1) < n - 1),
          Nat.add_sub_cancel' hle, Nat.mod_eq_of_lt (by omega)]
        omega
      · refine ⟨S + (k - 1 + (n - 1) - S % (n - 1)), by omega, by omega, ?_⟩
        rw [Nat.add_mod, Nat.mod_eq_of_lt (by omega : k - 1 + (n - 1) - S % (n - 1) < n - 1),
          Nat.add_sub_cancel' (by omega), Nat.add_mod_right, Nat.mod_eq_of_lt (by omega)]
        omega
    rw [← ht3, aw t ht1 ht2, bw t ht1 ht2, hx]

end Sys2Proof.Laws
end

