-- ==== Sys2Proof/Laws/State.lean ====
section
/-! SUPPORT. What each named update does to each field, one lemma a field, so that no later proof
unfolds an update. -/

namespace Sys2Proof.Laws

open Sys2Proof.Machine

variable {w n iw : Nat}

/-! ### Updates of a generator -/

@[simp] theorem seededWith_mt (mt : Vector (BitVec w) n) (g : Gen w n iw) :
    (seededWith mt g).mt = mt := rfl

@[simp] theorem seededWith_idx (mt : Vector (BitVec w) n) (g : Gen w n iw) :
    (seededWith mt g).idx = BitVec.ofNat iw n := rfl

@[simp] theorem seededWith_seeded (mt : Vector (BitVec w) n) (g : Gen w n iw) :
    (seededWith mt g).seeded = true := rfl

@[simp] theorem seededWith_err (mt : Vector (BitVec w) n) (g : Gen w n iw) :
    (seededWith mt g).err = g.err := rfl

@[simp] theorem seededWith_key (mt : Vector (BitVec w) n) (g : Gen w n iw) :
    (seededWith mt g).key = g.key := rfl

@[simp] theorem seededWith_klen (mt : Vector (BitVec w) n) (g : Gen w n iw) :
    (seededWith mt g).klen = g.klen := rfl

@[simp] theorem recordError_mt (e : ErrorKind) (g : Gen w n iw) :
    (recordError e g).mt = g.mt := by
  unfold recordError; split <;> rfl

@[simp] theorem recordError_idx (e : ErrorKind) (g : Gen w n iw) :
    (recordError e g).idx = g.idx := by
  unfold recordError; split <;> rfl

@[simp] theorem recordError_seeded (e : ErrorKind) (g : Gen w n iw) :
    (recordError e g).seeded = g.seeded := by
  unfold recordError; split <;> rfl

@[simp] theorem recordError_key (e : ErrorKind) (g : Gen w n iw) :
    (recordError e g).key = g.key := by
  unfold recordError; split <;> rfl

@[simp] theorem recordError_klen (e : ErrorKind) (g : Gen w n iw) :
    (recordError e g).klen = g.klen := by
  unfold recordError; split <;> rfl

theorem recordError_err (e : ErrorKind) (g : Gen w n iw) :
    (recordError e g).err = if g.err = 0 then errorCode e else g.err := by
  unfold recordError; split <;> rfl

/-- What `raise` leaves of a generator, as one update (R206). -/
theorem recordError_eq (e : ErrorKind) (g : Gen w n iw) :
    recordError e g = { g with err := if g.err = 0 then errorCode e else g.err } := by
  unfold recordError; split <;> rfl

@[simp] theorem genReset_mt (cap : Nat) :
    (Gen.reset cap : Gen w n iw).mt = Vector.replicate n 0 := rfl

@[simp] theorem genReset_idx (cap : Nat) :
    (Gen.reset cap : Gen w n iw).idx = 0 := rfl

@[simp] theorem genReset_seeded (cap : Nat) :
    (Gen.reset cap : Gen w n iw).seeded = false := rfl

@[simp] theorem genReset_err (cap : Nat) :
    (Gen.reset cap : Gen w n iw).err = 0 := rfl

@[simp] theorem genReset_key (cap : Nat) :
    (Gen.reset cap : Gen w n iw).key = List.replicate cap 0 := rfl

@[simp] theorem genReset_klen (cap : Nat) :
    (Gen.reset cap : Gen w n iw).klen = 0 := rfl

/-! ### Updates of the block -/

@[simp] theorem offerEvent_g32 (e : HostEvent) (s : State) :
    (offerEvent e s).g32 = s.g32 := rfl

@[simp] theorem offerEvent_g64 (e : HostEvent) (s : State) :
    (offerEvent e s).g64 = s.g64 := rfl

@[simp] theorem offerEvent_pending (e : HostEvent) (s : State) :
    (offerEvent e s).pending = e :: s.pending := rfl

@[simp] theorem offerEvent_responses (e : HostEvent) (s : State) :
    (offerEvent e s).responses = s.responses := rfl

@[simp] theorem resetBlock_g32 (s : State) :
    (resetBlock s).g32 = Gen.reset s.g32.key.length := rfl

@[simp] theorem resetBlock_g64 (s : State) :
    (resetBlock s).g64 = Gen.reset s.g64.key.length := rfl

@[simp] theorem resetBlock_pending (s : State) :
    (resetBlock s).pending = s.pending := rfl

@[simp] theorem resetBlock_responses (s : State) :
    (resetBlock s).responses = s.responses := rfl

@[simp] theorem resetWith_g32 (cap32 cap64 : Nat) :
    (State.resetWith cap32 cap64).g32 = Gen.reset cap32 := rfl

@[simp] theorem resetWith_g64 (cap32 cap64 : Nat) :
    (State.resetWith cap32 cap64).g64 = Gen.reset cap64 := rfl

@[simp] theorem resetWith_pending (cap32 cap64 : Nat) :
    (State.resetWith cap32 cap64).pending = [] := rfl

@[simp] theorem resetWith_responses (cap32 cap64 : Nat) :
    (State.resetWith cap32 cap64).responses = [] := rfl

@[simp] theorem finish32_done (g : Gen 32 624 10) (d : BitVec 64) (s : State) :
    finish32 (.done g d) s =
      .next { s with g32 := g, responses := successResponse d :: s.responses } := rfl

@[simp] theorem finish32_raised (g : Gen 32 624 10) (e : ErrorKind) (s : State) :
    finish32 (.raised g e) s =
      .next { s with g32 := recordError e g, responses := errorResponse e :: s.responses } := rfl

@[simp] theorem finish32_stuck (f : Fault) (s : State) : finish32 (.stuck f) s = .fault f := rfl

@[simp] theorem finish64_done (g : Gen 64 312 9) (d : BitVec 64) (s : State) :
    finish64 (.done g d) s =
      .next { s with g64 := g, responses := successResponse d :: s.responses } := rfl

@[simp] theorem finish64_raised (g : Gen 64 312 9) (e : ErrorKind) (s : State) :
    finish64 (.raised g e) s =
      .next { s with g64 := recordError e g, responses := errorResponse e :: s.responses } := rfl

@[simp] theorem finish64_stuck (f : Fault) (s : State) : finish64 (.stuck f) s = .fault f := rfl

/-! ### Responses -/

@[simp] theorem successResponse_errf (d : BitVec 64) : (successResponse d).errf = false := rfl

@[simp] theorem successResponse_code (d : BitVec 64) : (successResponse d).code = 0 := rfl

@[simp] theorem successResponse_rdata (d : BitVec 64) : (successResponse d).rdata = d := rfl

@[simp] theorem errorResponse_errf (e : ErrorKind) : (errorResponse e).errf = true := rfl

@[simp] theorem errorResponse_code (e : ErrorKind) : (errorResponse e).code = errorCode e := rfl

@[simp] theorem errorResponse_rdata (e : ErrorKind) : (errorResponse e).rdata = 0 := rfl

/-- R201: an error's code is one of 1 to 4. -/
theorem errorCode_range (e : ErrorKind) : errorCode e ≠ 0 ∧ (errorCode e).toNat ≤ 4 := by
  cases e <;> decide

/-! ### The host's events -/

/-- With nothing pending there is no event to take. -/
theorem takeEvent_idle {s : State} (h : s.pending = []) : takeEvent s = none := by
  simp [takeEvent, h]

/-- The event at the head is taken, and the rest stays. -/
theorem takeEvent_next {s : State} {e : HostEvent} {rest : List HostEvent}
    (h : s.pending = e :: rest) : takeEvent s = some (e, { s with pending := rest }) := by
  simp [takeEvent, h]

/-- What is offered is what is taken. -/
theorem takeEvent_offerEvent (e : HostEvent) (s : State) :
    takeEvent (offerEvent e s) = some (e, s) := rfl

end Sys2Proof.Laws
end

