-- ==== Sys2Proof/Laws/Commands.lean ====
section
/-! SUPPORT. What each operation and each step can do, said once: an operation's result under each of
its conditions, `exec` as an operation on one generator, and the cases of a step. -/

namespace Sys2Proof.Laws

open Sys2Proof.Machine Sys2Proof.Safety

variable {w n iw : Nat}

/-! ### The operations, case by case -/

theorem genKeypush_full {v : BitVec w} {g : Gen w n iw} (h : g.klen.toNat = g.key.length) :
    genKeypush v g = .raised g .keyOverflow := by simp [genKeypush, h]

theorem genKeypush_room {v : BitVec w} {g : Gen w n iw} (h : g.klen.toNat < g.key.length) :
    genKeypush v g = .done { g with key := g.key.set g.klen.toNat v, klen := g.klen + 1 } 0 := by
  simp [genKeypush, h, Nat.ne_of_lt h]

theorem genKeypush_beyond {v : BitVec w} {g : Gen w n iw} (h : g.key.length < g.klen.toNat) :
    genKeypush v g = .stuck .keyLengthBeyondBuffer := by
  simp [genKeypush, Nat.ne_of_gt h, Nat.not_lt_of_gt h]

theorem genSeedarr_empty {c : Params w n} {g : Gen w n iw} (h : g.klen = 0) :
    genSeedarr c g = .raised { g with seeded := false } .invalidInput := by simp [genSeedarr, h]

theorem genSeedarr_key {c : Params w n} {g : Gen w n iw} (h : g.klen ≠ 0)
    (hl : g.klen.toNat ≤ g.key.length) :
    genSeedarr c g = .done (seededWith (weave c g.key g.klen.toNat g.mt) g) 0 := by
  rw [genSeedarr, if_neg h, if_pos hl]

theorem genSeedarr_beyond {c : Params w n} {g : Gen w n iw}
    (hl : g.key.length < g.klen.toNat) :
    genSeedarr c g = .stuck .keyLengthBeyondBuffer := by
  have h : g.klen ≠ 0 := by rintro h; simp [h] at hl
  rw [genSeedarr, if_neg h, if_neg (Nat.not_le_of_gt hl)]

theorem genNext_unseeded {c : Params w n} {g : Gen w n iw} (h : g.seeded = false) :
    genNext c g = .raised g .invalidState := by simp [genNext, h]

theorem genNext_within {c : Params w n} {g : Gen w n iw} (h : g.seeded = true)
    (hi : g.idx.toNat < n) :
    genNext c g = .done { g with idx := g.idx + 1 }
      (resultWord (temper c (readWord g.mt g.idx.toNat))) := by
  simp [genNext, h, Nat.le_of_lt hi, freshBatch, Nat.ne_of_lt hi, emitWord]

theorem genNext_usedUp {c : Params w n} {g : Gen w n iw} (h : g.seeded = true)
    (hi : g.idx.toNat = n) :
    genNext c g = .done { g with mt := twist c g.mt, idx := 1 }
      (resultWord (temper c (readWord (twist c g.mt) 0))) := by
  simp [genNext, h, hi, freshBatch, emitWord]

theorem genNext_beyond {c : Params w n} {g : Gen w n iw} (h : g.seeded = true)
    (hi : n < g.idx.toNat) : genNext c g = .stuck .indexBeyondBatch := by
  simp [genNext, h, Nat.not_le_of_gt hi]

/-- Key words in use are read alike from two buffers that begin alike. -/
theorem keyWord_of_take_eq {key key' : List (BitVec w)} {len : Nat}
    (h : key.take len = key'.take len) {j : Nat} (hj : j < len) :
    keyWord key j = keyWord key' j := by
  have : (key.take len)[j]? = (key'.take len)[j]? := by rw [h]
  simpa [keyWord, List.getElem?_take, hj] using congrArg (·.getD 0) this

/-! ### `exec` on `G32` -/

/-- What a command does to `G32` alone; a command to the other generator does nothing to it. -/
def result32 (i : Instr) (g : Gen32) : CmdResult 32 624 10 :=
  match i with
  | .seed32 v => genSeed params32 v g
  | .keyclr32 => genKeyclr g
  | .keypush32 v => genKeypush v g
  | .seedarr32 => genSeedarr params32 g
  | .next32 => genNext params32 g
  | .stat32 => genStat g
  | .seed64 _ | .keyclr64 | .keypush64 _ | .seedarr64 | .next64 | .stat64 => .done g 0

/-- A command to `G32` is its operation on `G32` and the end of the command. -/
theorem exec_eq_finish32 {i : Instr} (h : i.unit = .g32) (s : State) :
    exec i s = finish32 (result32 i s.g32) s := by
  cases i <;> first | (simp [Instr.unit] at h; done) | rfl

/-- The two ways the end of a `G32` command answers a next state. -/
theorem finish32_next {r : CmdResult 32 624 10} {s t : State} (h : finish32 r s = .next t) :
    (∃ g d, r = .done g d ∧
      t = { s with g32 := g, responses := successResponse d :: s.responses }) ∨
    ∃ g e, r = .raised g e ∧
      t = { s with g32 := recordError e g, responses := errorResponse e :: s.responses } := by
  cases r with
  | done g d => exact .inl ⟨g, d, rfl, by simpa using h.symm⟩
  | raised g e => exact .inr ⟨g, e, rfl, by simpa using h.symm⟩
  | stuck f => simp at h

/-! ### `exec` on `G64` -/

/-- What a command does to `G64` alone; a command to the other generator does nothing to it. -/
def result64 (i : Instr) (g : Gen64) : CmdResult 64 312 9 :=
  match i with
  | .seed64 v => genSeed params64 v g
  | .keyclr64 => genKeyclr g
  | .keypush64 v => genKeypush v g
  | .seedarr64 => genSeedarr params64 g
  | .next64 => genNext params64 g
  | .stat64 => genStat g
  | .seed32 _ | .keyclr32 | .keypush32 _ | .seedarr32 | .next32 | .stat32 => .done g 0

/-- A command to `G64` is its operation on `G64` and the end of the command. -/
theorem exec_eq_finish64 {i : Instr} (h : i.unit = .g64) (s : State) :
    exec i s = finish64 (result64 i s.g64) s := by
  cases i <;> first | (simp [Instr.unit] at h; done) | rfl

/-- The two ways the end of a `G64` command answers a next state. -/
theorem finish64_next {r : CmdResult 64 312 9} {s t : State} (h : finish64 r s = .next t) :
    (∃ g d, r = .done g d ∧
      t = { s with g64 := g, responses := successResponse d :: s.responses }) ∨
    ∃ g e, r = .raised g e ∧
      t = { s with g64 := recordError e g, responses := errorResponse e :: s.responses } := by
  cases r with
  | done g d => exact .inl ⟨g, d, rfl, by simpa using h.symm⟩
  | raised g e => exact .inr ⟨g, e, rfl, by simpa using h.symm⟩
  | stuck f => simp at h

/-- A command is addressed to one of the two generators. -/
theorem unit_cases (i : Instr) : i.unit = .g32 ∨ i.unit = .g64 := by
  cases i <;> simp [Instr.unit]

/-! ### The step -/

theorem step_idle {s : State} (h : s.pending = []) : step s = .next s := by
  simp [step, takeEvent_idle h]

theorem step_reset {s : State} {rest : List HostEvent} (h : s.pending = .reset :: rest) :
    step s = .next (resetBlock { s with pending := rest }) := by
  simp [step, takeEvent_next h]

theorem step_command {s : State} {c : Command} {rest : List HostEvent} {i : Instr}
    (h : s.pending = .command c :: rest) (hd : decode c = .ok i) :
    step s = exec i { s with pending := rest } := by
  simp [step, takeEvent_next h, hd]

theorem step_illegal {s : State} {c : Command} {rest : List HostEvent} {why : Illegal}
    (h : s.pending = .command c :: rest) (hd : decode c = .error why) :
    step s = .next (raiseIllegal c { s with pending := rest }) := by
  simp [step, takeEvent_next h, hd]

/-- Everything a step can be: idle, the reset event, a command, or an illegal pair. -/
theorem step_cases (s : State) :
    (s.pending = [] ∧ step s = .next s) ∨
    (∃ rest, s.pending = .reset :: rest ∧
      step s = .next (resetBlock { s with pending := rest })) ∨
    (∃ c rest i, s.pending = .command c :: rest ∧ decode c = .ok i ∧
      step s = exec i { s with pending := rest }) ∨
    ∃ c rest why, s.pending = .command c :: rest ∧ decode c = .error why ∧
      step s = .next (raiseIllegal c { s with pending := rest }) := by
  rcases hp : s.pending with _ | ⟨e, rest⟩
  · exact .inl ⟨rfl, step_idle hp⟩
  · cases e with
    | reset => exact .inr (.inl ⟨rest, rfl, step_reset hp⟩)
    | command c =>
      rcases hd : decode c with why | i
      · exact .inr (.inr (.inr ⟨c, rest, why, rfl, hd, step_illegal hp hd⟩))
      · exact .inr (.inr (.inl ⟨c, rest, i, rfl, hd, step_command hp hd⟩))

end Sys2Proof.Laws
end

