-- ==== Sys2Proof/Laws/Decode.lean ====
section
/-! SUPPORT. The decoder and the encoder: the fields of a command word, and everything the decoder can
answer. -/

namespace Sys2Proof.Laws

open Sys2Proof

@[simp] theorem genOfField_unitCode (u : GenId) : genOfField (unitCode u) = some u := by
  cases u <;> rfl

@[simp] theorem opOfField_opCode (o : Op) : opOfField (opCode o) = some o := by cases o <;> rfl

theorem genOfField_some {f : BitVec 4} {u : GenId} (h : genOfField f = some u) :
    f = unitCode u := by
  revert h; revert f u; decide

theorem opOfField_some {f : BitVec 8} {o : Op} (h : opOfField f = some o) : f = opCode o := by
  unfold opOfField at h
  repeat' split at h
  all_goals first | (cases h; assumption) | cases h

@[simp] theorem commandWord_rsvField (u : GenId) (o : Op) (d : BitVec 64) :
    (Command.mk (commandWord u o) d).rsvField = 0 := by
  change (commandWord u o).extractLsb' 12 4 = 0
  cases u <;> cases o <;> decide

@[simp] theorem commandWord_unitField (u : GenId) (o : Op) (d : BitVec 64) :
    (Command.mk (commandWord u o) d).unitField = unitCode u := by
  change (commandWord u o).extractLsb' 8 4 = unitCode u
  cases u <;> cases o <;> decide

@[simp] theorem commandWord_opField (u : GenId) (o : Op) (d : BitVec 64) :
    (Command.mk (commandWord u o) d).opField = opCode o := by
  change (commandWord u o).extractLsb' 0 8 = opCode o
  cases u <;> cases o <;> decide

/-- A command word is its three fields (R81). -/
theorem cmd_eq_fields (c : Command) : c.cmd = c.rsvField ++ (c.unitField ++ c.opField) := by
  apply BitVec.eq_of_toNat_eq
  have := c.cmd.isLt
  rw [BitVec.toNat_append, ← Nat.shiftLeft_add_eq_or_of_lt (BitVec.isLt _), BitVec.toNat_append,
    ← Nat.shiftLeft_add_eq_or_of_lt (BitVec.isLt _)]
  simp only [Command.rsvField, Command.unitField, Command.opField, BitVec.extractLsb'_toNat,
    Nat.shiftLeft_eq, Nat.shiftRight_eq_div_pow]
  omega

/-- `DATA` breaks R84 for this generator and operation. -/
def badData (u : GenId) (o : Op) (d : BitVec 64) : Prop :=
  (o.takesOperand = true ∧ u = .g32 ∧ upperData d ≠ 0) ∨ (o.takesOperand = false ∧ d ≠ 0)

/-- All a pair needs to decode, and what it then decodes to (R88). -/
theorem decode_ok_iff (c : Command) (i : Instr) :
    decode c = .ok i ↔
      ∃ u o, c.cmd = commandWord u o ∧ ¬ badData u o c.data ∧ i = instrOf u o c.data := by
  constructor
  · intro h
    unfold decode at h
    split at h
    · cases h
    · next hr =>
      split at h
      · cases h
      · next u hu =>
        split at h
        · cases h
        · next o ho =>
          split at h
          · cases h
          · next h1 =>
            split at h
            · cases h
            · next h2 =>
              refine ⟨u, o, ?_, ?_, by cases h; rfl⟩
              · rw [cmd_eq_fields c, genOfField_some hu, opOfField_some ho, not_not.mp hr]; rfl
              · rintro (hb | hb)
                · exact h1 hb
                · exact h2 hb
  · rintro ⟨u, o, hc, hb, rfl⟩
    obtain ⟨cmd, d⟩ := c
    simp only at hc hb ⊢
    subst hc
    have h1 : ¬(o.takesOperand = true ∧ u = .g32 ∧ upperData d ≠ 0) := fun h => hb (.inl h)
    have h2 : ¬(o.takesOperand = false ∧ d ≠ 0) := fun h => hb (.inr h)
    simp only [decode, commandWord_rsvField, commandWord_unitField, commandWord_opField,
      genOfField_unitCode, opOfField_opCode]
    rw [if_neg (by simp), if_neg h1, if_neg h2]

/-- Everything the decoder can answer, and when (R88): the test that a pair fails first, or its
command. -/
theorem decode_cases (c : Command) :
    (decode c = .error .reservedBits ∧ c.rsvField ≠ 0) ∨
    (decode c = .error .reservedUnit ∧ c.rsvField = 0 ∧ genOfField c.unitField = none) ∨
    (decode c = .error .reservedOp ∧ c.rsvField = 0 ∧ (∃ u, genOfField c.unitField = some u) ∧
      opOfField c.opField = none) ∨
    ∃ u o, c.cmd = commandWord u o ∧
      ((decode c = .error .wideOperand ∧ o.takesOperand = true ∧ u = .g32 ∧ upperData c.data ≠ 0) ∨
        (decode c = .error .unexpectedData ∧ o.takesOperand = false ∧ c.data ≠ 0) ∨
        (decode c = .ok (instrOf u o c.data) ∧ ¬ badData u o c.data)) := by
  unfold decode
  by_cases hr : c.rsvField = 0
  · rw [if_neg (not_not.mpr hr)]
    rcases hu : genOfField c.unitField with _ | u
    · exact .inr (.inl ⟨rfl, hr, rfl⟩)
    · rcases ho : opOfField c.opField with _ | o
      · exact .inr (.inr (.inl ⟨rfl, hr, ⟨u, rfl⟩, rfl⟩))
      · have hc : c.cmd = commandWord u o := by
          rw [cmd_eq_fields c, genOfField_some hu, opOfField_some ho, hr]; rfl
        refine .inr (.inr (.inr ⟨u, o, hc, ?_⟩))
        by_cases hw : o.takesOperand = true ∧ u = .g32 ∧ upperData c.data ≠ 0
        · exact .inl ⟨if_pos hw, hw⟩
        · by_cases hd : o.takesOperand = false ∧ c.data ≠ 0
          · exact .inr (.inl ⟨by simp only [if_neg hw, if_pos hd], hd⟩)
          · exact .inr (.inr ⟨by simp only [if_neg hw, if_neg hd], not_or.mpr ⟨hw, hd⟩⟩)
  · exact .inl ⟨if_pos hr, hr⟩

/-! ### The fields as numbers -/

theorem rsvField_toNat (c : Command) : c.rsvField.toNat = c.cmd.toNat / 4096 := by
  have := c.cmd.isLt
  simp only [Command.rsvField, BitVec.extractLsb'_toNat, Nat.shiftRight_eq_div_pow]
  omega

theorem unitField_toNat (c : Command) : c.unitField.toNat = c.cmd.toNat / 256 % 16 := by
  simp [Command.unitField, Nat.shiftRight_eq_div_pow]

theorem opField_toNat (c : Command) : c.opField.toNat = c.cmd.toNat % 256 := by
  simp [Command.opField]

theorem upperData_toNat (d : BitVec 64) : (upperData d).toNat = d.toNat / 2 ^ 32 := by
  have := d.isLt
  simp only [upperData, BitVec.extractLsb'_toNat, Nat.shiftRight_eq_div_pow]
  omega

theorem genOfField_none {f : BitVec 4} : genOfField f = none ↔ 1 < f.toNat := by
  revert f; decide

theorem genOfField_g32 {f : BitVec 4} : genOfField f = some .g32 ↔ f.toNat = 0 := by
  revert f; decide

theorem genOfField_g64 {f : BitVec 4} : genOfField f = some .g64 ↔ f.toNat = 1 := by
  revert f; decide

theorem opOfField_none {f : BitVec 8} : opOfField f = none ↔ f.toNat = 0 ∨ 6 < f.toNat := by
  unfold opOfField
  constructor
  · intro h
    repeat' split at h
    all_goals first | (cases h; done) | bv_omega
  · intro h
    repeat' rw [if_neg (by bv_omega)]

end Sys2Proof.Laws
end

