-- ==== Sys2Proof/Laws/PerInstr.lean ====
section
/-! SUPPORT. Statements about every command as syntax, one lemma a constructor. -/

namespace Sys2Proof.Laws

open Sys2Proof

/-- The pair the encoder writes for a command passes the four checks of R81 to R84. -/
def EncodeWellFormed.Statement (i : Instr) : Prop := (encode i).WellFormed = true

theorem EncodeWellFormed.seed32 (v : Word32) : EncodeWellFormed.Statement (.seed32 v) := by
  have h : (v.setWidth 64).toNat < 2 ^ 32 := by
    rw [BitVec.toNat_setWidth_of_le (by decide)]; exact v.isLt
  have hc : commandWord .g32 .seed = 0x0001 := by decide
  simp [EncodeWellFormed.Statement, encode, Instr.unit, Instr.op, dataWord, hc, Command.WellFormed,
    Command.reservedBitsClear, Command.unitLegal, Command.opLegal, Command.operandBitsClear,
    -BitVec.toNat_setWidth]
  exact h

theorem EncodeWellFormed.keyclr32 : EncodeWellFormed.Statement .keyclr32 := by
  unfold EncodeWellFormed.Statement; decide

theorem EncodeWellFormed.keypush32 (v : Word32) : EncodeWellFormed.Statement (.keypush32 v) := by
  have h : (v.setWidth 64).toNat < 2 ^ 32 := by
    rw [BitVec.toNat_setWidth_of_le (by decide)]; exact v.isLt
  have hc : commandWord .g32 .keypush = 0x0003 := by decide
  simp [EncodeWellFormed.Statement, encode, Instr.unit, Instr.op, dataWord, hc, Command.WellFormed,
    Command.reservedBitsClear, Command.unitLegal, Command.opLegal, Command.operandBitsClear,
    -BitVec.toNat_setWidth]
  exact h

theorem EncodeWellFormed.seedarr32 : EncodeWellFormed.Statement .seedarr32 := by
  unfold EncodeWellFormed.Statement; decide

theorem EncodeWellFormed.next32 : EncodeWellFormed.Statement .next32 := by
  unfold EncodeWellFormed.Statement; decide

theorem EncodeWellFormed.stat32 : EncodeWellFormed.Statement .stat32 := by
  unfold EncodeWellFormed.Statement; decide

theorem EncodeWellFormed.seed64 (v : Word64) : EncodeWellFormed.Statement (.seed64 v) := by
  have hc : commandWord .g64 .seed = 0x0101 := by decide
  simp [EncodeWellFormed.Statement, encode, Instr.unit, Instr.op, dataWord, hc, Command.WellFormed,
    Command.reservedBitsClear, Command.unitLegal, Command.opLegal, Command.operandBitsClear]

theorem EncodeWellFormed.keyclr64 : EncodeWellFormed.Statement .keyclr64 := by
  unfold EncodeWellFormed.Statement; decide

theorem EncodeWellFormed.keypush64 (v : Word64) : EncodeWellFormed.Statement (.keypush64 v) := by
  have hc : commandWord .g64 .keypush = 0x0103 := by decide
  simp [EncodeWellFormed.Statement, encode, Instr.unit, Instr.op, dataWord, hc, Command.WellFormed,
    Command.reservedBitsClear, Command.unitLegal, Command.opLegal, Command.operandBitsClear]

theorem EncodeWellFormed.seedarr64 : EncodeWellFormed.Statement .seedarr64 := by
  unfold EncodeWellFormed.Statement; decide

theorem EncodeWellFormed.next64 : EncodeWellFormed.Statement .next64 := by
  unfold EncodeWellFormed.Statement; decide

theorem EncodeWellFormed.stat64 : EncodeWellFormed.Statement .stat64 := by
  unfold EncodeWellFormed.Statement; decide

end Sys2Proof.Laws
end

