-- ==== Sys2Proof/Tests/Slice0.lean ====
section
/-! SUPPORT. The model's own tests, and the witnesses of the statements' hypotheses.

The expected value of a test is the spec's: a worked example or vector of its rules or of
95_test_vectors.md (named V<n>.<m> or by its rule), or a word written out from 30_encoding.md.  A theorem
`witness_<Name>` shows states and operands that meet the hypotheses of `Obligations.<Name>`, each clause
of it, at the ends of its ranges. -/

namespace Sys2Proof.Tests

open Sys2Proof Sys2Proof.Machine Sys2Proof.Safety Sys2Proof.Claims Sys2Proof.Laws

/-! ### Small states -/

/-- The block after reset with room for four key words, as in 95_test_vectors.md §2.8. -/
def small : State := State.resetWith 4 4

/-- `small` with `G32`'s index, seeded status, key length and error record as given. -/
def at32 (idx : BitVec 10) (seeded : Bool) (klen : BitVec 16) (err : BitVec 4) : State :=
  { small with g32 := { small.g32 with idx := idx, seeded := seeded, klen := klen, err := err } }

/-- `small` with `G64`'s index, seeded status, key length and error record as given. -/
def at64 (idx : BitVec 9) (seeded : Bool) (klen : BitVec 16) (err : BitVec 4) : State :=
  { small with g64 := { small.g64 with idx := idx, seeded := seeded, klen := klen, err := err } }

/-- `s` with one command pair to come. -/
def sending (cmd : BitVec 16) (data : BitVec 64) (s : State) : State :=
  offerEvent (.command ⟨cmd, data⟩) s

/-- One look at the state an outcome answers. -/
def seen {α : Type} (o : Outcome) (look : State → α) : Option α :=
  match o with
  | .next t => some (look t)
  | .fault _ => none
  | .refused _ => none

/-- The latest response, both error records and both seeded flags. -/
def report (s : State) : Option Response × BitVec 4 × BitVec 4 × Bool × Bool :=
  (s.responses.head?, s.g32.err, s.g64.err, s.g32.seeded, s.g64.seeded)

/-! ### WellFormed: an ill-formed term for each check -/

/-- `RSV` is not zero (R81). -/
theorem test_wellFormed_reservedBits :
    (Command.mk 0x1001 0).reservedBitsClear = false ∧ (Command.mk 0x1001 0).WellFormed = false := by
  decide

/-- `UNIT` is 2 (R82). -/
theorem test_wellFormed_unit :
    (Command.mk 0x0201 0).unitLegal = false ∧ (Command.mk 0x0201 0).WellFormed = false := by decide

/-- `OP` is 0, or 7 (R83). -/
theorem test_wellFormed_op :
    (Command.mk 0x0000 0).opLegal = false ∧ (Command.mk 0x0107 0).opLegal = false ∧
    (Command.mk 0x0000 0).WellFormed = false := by decide

/-- An operand too wide for `G32`, an operand where none is taken, and the same bit at `G64` (R84). -/
theorem test_wellFormed_operandBits :
    (Command.mk 0x0001 0x100000000).operandBitsClear = false ∧
    (Command.mk 0x0105 1).operandBitsClear = false ∧
    (Command.mk 0x0001 0x100000000).WellFormed = false ∧
    (Command.mk 0x0101 0x100000000).WellFormed = true := by decide

/-- A missing operand, and a superfluous one (R91). -/
theorem test_wellFormed_operandPresent :
    (AsmLine.mk .seed .g32 none).operandPresent = false ∧
    (AsmLine.mk .next .g32 (some 0)).operandPresent = false ∧
    (AsmLine.mk .seed .g32 none).WellFormed = false := by decide

/-- An operand of `2^W` (R91). -/
theorem test_wellFormed_operandInRange :
    (AsmLine.mk .keypush .g32 (some (2 ^ 32))).operandInRange = false ∧
    (AsmLine.mk .keypush .g32 (some (2 ^ 32))).WellFormed = false ∧
    (AsmLine.mk .keypush .g32 (some (2 ^ 32 - 1))).WellFormed = true := by decide

/-- A key word out of range, and `NEXTN32 0` (R92). -/
theorem test_wellFormed_source :
    (Source.seedKey .g32 [0, 2 ^ 32]).WellFormed = false ∧
    (Source.nextN .g32 0).WellFormed = false := by decide

/-! ### Decode: each command's word, bit by bit (R81 to R85) -/

theorem test_decode_g32 :
    decode ⟨0b0000_0000_00000001, 0x1571⟩ = .ok (.seed32 5489) ∧
    decode ⟨0b0000_0000_00000010, 0⟩ = .ok .keyclr32 ∧
    decode ⟨0b0000_0000_00000011, 0xFFFFFFFF⟩ = .ok (.keypush32 0xFFFFFFFF) ∧
    decode ⟨0b0000_0000_00000100, 0⟩ = .ok .seedarr32 ∧
    decode ⟨0b0000_0000_00000101, 0⟩ = .ok .next32 ∧
    decode ⟨0b0000_0000_00000110, 0⟩ = .ok .stat32 := by decide

theorem test_decode_g64 :
    decode ⟨0b0000_0001_00000001, 0xFFFFFFFFFFFFFFFF⟩ = .ok (.seed64 0xFFFFFFFFFFFFFFFF) ∧
    decode ⟨0b0000_0001_00000010, 0⟩ = .ok .keyclr64 ∧
    decode ⟨0b0000_0001_00000011, 0x12345⟩ = .ok (.keypush64 0x12345) ∧
    decode ⟨0b0000_0001_00000100, 0⟩ = .ok .seedarr64 ∧
    decode ⟨0b0000_0001_00000101, 0⟩ = .ok .next64 ∧
    decode ⟨0b0000_0001_00000110, 0⟩ = .ok .stat64 := by decide

/-- Each refusal of R88, and the first of several (R88's order). -/
theorem test_decode_refusals :
    decode ⟨0x1000, 1⟩ = .error .reservedBits ∧
    decode ⟨0x0F00, 1⟩ = .error .reservedUnit ∧
    decode ⟨0x0107, 1⟩ = .error .reservedOp ∧
    decode ⟨0x0003, 0x8000000000000000⟩ = .error .wideOperand ∧
    decode ⟨0x0104, 0x8000000000000000⟩ = .error .unexpectedData := by decide

/-- No pair fits two rows of the opcode table: the patterns differ under the common mask. -/
theorem test_opcodeTable_rows_differ :
    opcodeTable.Pairwise (fun r r' => r.pattern &&& (r.mask &&& r'.mask) ≠
      r'.pattern &&& (r.mask &&& r'.mask)) := by decide

/-- Each row's own word, with no data, fits it and names its command. -/
theorem test_opcodeTable_decodes :
    opcodeTable.all (fun r => r.fits ⟨r.pattern, 0⟩ &&
      decide (decode ⟨r.pattern, 0⟩ = .ok (instrOf r.unit r.op 0))) = true := by decide

/-- The table's numbering of bits: `CMD` below `DATA`. -/
theorem test_decodeTableWord :
    decodeTableWord 80 0x00000000000015710001 = some (.seed32 5489) ∧
    decodeTableWord 16 0x0105 = some .next64 ∧ decodeTableWord 16 0x0007 = none := by decide

/-! ### The datapath -/

/-- V1.1 to V1.5. -/
theorem test_seedMul :
    seedMul params32 0x00000000 1 = 0x00000001 ∧ seedMul params32 0x00000001 2 = 0x6C078967 ∧
    seedMul params32 0xFFFFFFFF 1 = 0x4FE1DA6D ∧
    seedMul params64 0x0000000000000001 2 = 0x5851F42D4C957F2F ∧
    seedMul params64 0xFFFFFFFFFFFFFFFF 1 = 0x9EB82F4ACDAA034D := by decide

/-- V2.1 to V2.3. -/
theorem test_mix1 :
    mix1 params32 0x82D2AB13 0x012BD6AA 0x123 0 = 0xFF890AD4 ∧
    mix1 params32 0xFFFFFFFF 0 0xFFFFFFFF 1 = 0xFFFFFFFF ∧
    mix1 params64 0x597276B55D2511E3 0x00000000012BD6AA 0x12345 0 = 0xFF376B2D160A70F6 := by decide

/-- V2.4 to V2.6. -/
theorem test_mix2 :
    mix2 params32 0 0 1 = 0xFFFFFFFF ∧ mix2 params32 5 0 5 = 0 ∧
    mix2 params64 0 0 1 = 0xFFFFFFFFFFFFFFFF := by decide

/-- V3.1, V3.3, V3.4 (R140). -/
theorem test_twistWord32 :
    twistWord params32 0x80000000 0x00000001 0 = 0xD908B0DF ∧
    twistWord params32 0 2 5 = 4 ∧
    twistWord params32 0xFFFFFFFF 0xFFFFFFFF 0 = 0xE6F74F20 := by decide

/-- V3.5, V3.7, V3.8 (R170). -/
theorem test_twistWord64 :
    twistWord params64 0x8000000000000000 0x0000000000000001 0 = 0xF5026F5AA96619E9 ∧
    twistWord params64 0 2 5 = 4 ∧
    twistWord params64 0xFFFFFFFFFFFFFFFF 0xFFFFFFFFFFFFFFFF 0 = 0xCAFD90A55699E616 := by decide

/-- R142's worked examples. -/
theorem test_temper32 :
    temper params32 0x00000001 = 0x00400091 ∧ temper params32 0x80000000 = 0x88102204 ∧
    temper params32 0xFFFFFFFF = 0x6FE01BF8 ∧ temper params32 0x12345678 = 0x2B7E4A2D ∧
    temper params32 0x9B0AFA27 = 0xD091BB5C := by decide

/-- R172's worked examples. -/
theorem test_temper64 :
    temper params64 0x0000000000000001 = 0x0040002000020801 ∧
    temper params64 0x8000000000000000 = 0x8000000400100000 ∧
    temper params64 0xFFFFFFFFFFFFFFFF = 0x7BFEEEEFEFA1D577 ∧
    temper params64 0x0123456789ABCDEF = 0x2254DA7001198660 ∧
    temper params64 0x245B1C66F2BDC210 = 0xC96D191CF6F6AEA6 := by decide

/-! ### Commands (95_test_vectors.md §2.8) -/

/-- V8.1: `SEED32 5489`. -/
theorem test_seed32 :
    seen (step (sending 0x0001 0x1571 small)) report = some (some ⟨false, 0, 0⟩, 0, 0, true, false) ∧
    seen (step (sending 0x0001 0x1571 small)) (fun t => t.g32.idx) = some 624 := by decide

/-- V8.11: every `DATA` bit is an operand for `SEED64`. -/
theorem test_seed64 :
    seen (step (sending 0x0101 0xFFFFFFFFFFFFFFFF small)) report =
      some (some ⟨false, 0, 0⟩, 0, 0, false, true) ∧
    seen (step (sending 0x0101 0xFFFFFFFFFFFFFFFF small)) (fun t => t.g64.idx) = some 312 := by decide

/-- R145's example: after a push, `KEYCLR32` empties the key; the words stay. -/
theorem test_keyclr32 :
    seen (exec .keyclr32 (at32 0 false 1 0)) (fun t => (t.g32.klen, t.responses)) =
      some (0, [⟨false, 0, 0⟩]) := by decide

/-- R175's example. -/
theorem test_keyclr64 :
    seen (exec .keyclr64 (at64 0 false 1 0)) (fun t => (t.g64.klen, t.responses)) =
      some (0, [⟨false, 0, 0⟩]) := by decide

/-- V8.18. -/
theorem test_keypush32 :
    seen (exec (.keypush32 0xFFFFFFFF) small) (fun t => (t.g32.key, t.g32.klen, t.responses)) =
      some ([0xFFFFFFFF, 0, 0, 0], 1, [⟨false, 0, 0⟩]) := by decide

/-- V8.17: the push on a full buffer is discarded, and the code is recorded if there was none. -/
theorem test_keypush64_overflow :
    seen (exec (.keypush64 0x56789) (at64 0 false 4 0))
      (fun t => (t.g64.key, t.g64.klen, t.g64.err, t.responses)) =
      some ([0, 0, 0, 0], 4, 4, [⟨true, 4, 0⟩]) := by decide

/-- R176's example. -/
theorem test_keypush64 :
    seen (exec (.keypush64 0x12345) small) (fun t => (t.g64.key, t.g64.klen)) =
      some ([0x12345, 0, 0, 0], 1) := by decide

/-- V8.6: an empty key leaves a seeded generator unseeded, its index untouched. -/
theorem test_seedarr32_empty :
    seen (exec .seedarr32 (at32 1 true 0 0)) (fun t => (report t, t.g32.idx)) =
      some ((some ⟨true, 1, 0⟩, 1, 0, false, false), 1) := by decide

/-- R147: with a key the generator is seeded at `N`, and the key stays. -/
theorem test_seedarr32 :
    seen (exec .seedarr32 (at32 0 false 4 0)) (fun t => (report t, t.g32.idx, t.g32.klen)) =
      some ((some ⟨false, 0, 0⟩, 0, 0, true, false), 624, 4) := by decide

/-- R202 at 64 bits. -/
theorem test_seedarr64_empty :
    seen (exec .seedarr64 (at64 1 true 0 2)) (fun t => (report t, t.g64.idx)) =
      some ((some ⟨true, 1, 0⟩, 0, 2, false, false), 1) := by decide

/-- R177. -/
theorem test_seedarr64 :
    seen (exec .seedarr64 (at64 0 false 4 0)) (fun t => (report t, t.g64.idx, t.g64.klen)) =
      some ((some ⟨false, 0, 0⟩, 0, 0, false, true), 312, 4) := by decide

/-- V8.7: `NEXT32` on an unseeded generator; the first error stays. -/
theorem test_next32_unseeded :
    seen (exec .next32 (at32 1 false 0 1)) report = some (some ⟨true, 2, 0⟩, 1, 0, false, false) := by
  decide

/-- R148: the last word of a batch is emitted without a regeneration. -/
theorem test_next32_last :
    seen (exec .next32 (at32 623 true 0 0)) (fun t => (report t, t.g32.idx)) =
      some ((some ⟨false, 0, 0⟩, 0, 0, true, false), 624) := by decide +kernel

/-- R203 at 64 bits. -/
theorem test_next64_unseeded :
    seen (exec .next64 small) report = some (some ⟨true, 2, 0⟩, 0, 2, false, false) := by decide

/-- R178: the last word of a batch is emitted without a regeneration. -/
theorem test_next64_last :
    seen (exec .next64 (at64 311 true 0 0)) (fun t => (report t, t.g64.idx)) =
      some ((some ⟨false, 0, 0⟩, 0, 0, false, true), 312) := by decide

/-- V8.3 and P6 step 7, at 32 bits: every field of the status word at once. -/
theorem test_stat32 :
    seen (exec .stat32 (at32 1 true 0 0)) (fun t => t.responses) = some [⟨false, 0, 0x10001⟩] ∧
    seen (exec .stat32 (at32 1 false 4 2)) (fun t => t.responses) =
      some [⟨false, 0, 0x0000000400200000⟩] := by decide

/-- V8.5, and P6 step 10. -/
theorem test_stat64 :
    seen (exec .stat64 (at64 312 true 0 0)) (fun t => t.responses) = some [⟨false, 0, 0x10138⟩] ∧
    seen (exec .stat64 (at64 1 true 4 4)) (fun t => t.responses) =
      some [⟨false, 0, 0x0000000400410001⟩] := by decide

/-! ### Illegal pairs and reset -/

/-- V8.10, V8.12, V8.13, V8.16: recorded by `G32`; ILLEGAL_COMMAND wins over INVALID_STATE. -/
theorem test_illegal_g32 :
    [((0x0001 : BitVec 16), (0x100000000 : BitVec 64)), (0x0005, 1), (0x0000, 0), (0x1001, 0)].all
      (fun p => decide (seen (step (sending p.1 p.2 small)) report =
        some (some ⟨true, 3, 0⟩, 3, 0, false, false))) = true := by decide

/-- V8.15, and R204 at `UNIT = 1` with `RSV` set. -/
theorem test_illegal_unit :
    seen (step (sending 0x0201 0 small)) report = some (some ⟨true, 3, 0⟩, 0, 0, false, false) ∧
    seen (step (sending 0x1105 0 small)) report = some (some ⟨true, 3, 0⟩, 0, 3, false, false) := by
  decide

/-- R230: reset clears both generators and has no response. -/
theorem test_reset_event :
    seen (step (offerEvent .reset (at32 5 true 3 4))) (fun t => (report t, t.g32.klen)) =
      some ((none, 0, 0, false, false), 0) := by decide

/-! ### `SEED` then `NEXT` -/

/-- The `i`-th word of R111's recurrence. -/
def chain {w n : Nat} (c : Params w n) (v : BitVec w) : Nat → BitVec w
  | 0 => v
  | i + 1 => seedMul c (chain c v i) (i + 1)

/-- The fill's words are the recurrence's. -/
theorem fill_eq_chain {w n : Nat} (c : Params w n) (v : BitVec w) (mt : Vector (BitVec w) n)
    (hn : 0 < n) (i : Nat) (hi : i < n) : readWord (fill c v mt) i = chain c v i := by
  induction i with
  | zero => exact (fill_words c v mt hn).1
  | succ i ih =>
    rw [(fill_words c v mt hn).2 (i + 1) (by omega) hi, Nat.add_sub_cancel, ih (by omega)]
    rfl

/-- The first word of a regeneration comes from words 0, 1 and `M`. -/
theorem twist_first {w n : Nat} (c : Params w n) (mt : Vector (BitVec w) n) (h1 : 1 ≤ c.m)
    (hm : c.m < n) : readWord (twist c mt) 0 =
      twistWord c (readWord mt 0) (readWord mt 1) (readWord mt c.m) := by
  have h := twist_words c mt h1 hm 0 (by omega)
  rw [if_neg (by omega), if_pos (by omega), Nat.zero_add, Nat.zero_add] at h
  exact h

/-- V1.6: words of `FILL_32(5489)`. -/
theorem test_fill32 : chain params32 5489 1 = 0x4D98EE96 ∧ chain params32 5489 2 = 0xAF25F095 ∧
    chain params32 5489 623 = 0x04C46D8C := by decide +kernel

/-- V1.10: words of `FILL_64(5489)`. -/
theorem test_fill64 : chain params64 5489 1 = 0xB5347F47116BD3DE ∧
    chain params64 5489 311 = 0xC65AE95C45A5D796 := by decide +kernel

/-- V3.9: the first regenerated word after `SEED32 5489`. -/
theorem test_twist32 (mt : Vector Word32 624) :
    readWord (twist params32 (fill params32 5489 mt)) 0 = 0x9B0AFA27 := by
  rw [twist_first params32 _ (by decide) (by decide), fill_eq_chain params32 _ _ (by decide) 0 (by decide),
    fill_eq_chain params32 _ _ (by decide) 1 (by decide),
    fill_eq_chain params32 _ _ (by decide) params32.m (by decide)]
  decide +kernel

/-- V3.12: the first regenerated word after `SEED64 5489`. -/
theorem test_twist64 (mt : Vector Word64 312) :
    readWord (twist params64 (fill params64 5489 mt)) 0 = 0x245B1C66F2BDC210 := by
  rw [twist_first params64 _ (by decide) (by decide), fill_eq_chain params64 _ _ (by decide) 0 (by decide),
    fill_eq_chain params64 _ _ (by decide) 1 (by decide),
    fill_eq_chain params64 _ _ (by decide) params64.m (by decide)]
  decide +kernel

/-- The word of a `NEXT` on a just seeded generator: the first of the regenerated batch (R148, R178). -/
theorem genNext_justSeeded {w n iw : Nat} (c : Params w n) (mt : Vector (BitVec w) n) (g : Gen w n iw)
    (hn : n < 2 ^ iw) : genNext c (seededWith mt g) =
      .done { g with mt := twist c mt, idx := 1, seeded := true }
        (resultWord (temper c (readWord (twist c mt) 0))) :=
  genNext_usedUp rfl (by simpa using Nat.mod_eq_of_lt hn)

/-- `SEED32 v` then `NEXT32`: the response is the tempered first word of the regenerated fill. -/
theorem next32_after_seed (v : Word32) (s : State) :
    seen (execAll [.seed32 v, .next32] s) (fun t => (t.responses.head?, t.g32.idx)) =
      some (some ⟨false, 0, resultWord (temper params32
        (readWord (twist params32 (fill params32 v s.g32.mt)) 0))⟩, 1) := by
  have e := exec_eq_finish32 (i := .seed32 v) rfl s
  rw [result32, genSeed, finish32_done] at e
  generalize fill params32 v s.g32.mt = mt at e
  simp only [execAll, e]
  rw [exec_eq_finish32 (i := .next32) rfl, result32, genNext_justSeeded _ _ _ (by decide), finish32_done]
  rfl

/-- V8.2: `SEED32 5489` then `NEXT32`, from every state: 3499211612. -/
theorem test_seed32_next32 (s : State) :
    seen (execAll [.seed32 5489, .next32] s) (fun t => (t.responses.head?, t.g32.idx)) =
      some (some ⟨false, 0, 0xD091BB5C⟩, 1) := by
  rw [next32_after_seed, test_twist32, test_temper32.2.2.2.2]
  rfl

/-- `SEED64 v` then `NEXT64`: the response is the tempered first word of the regenerated fill. -/
theorem next64_after_seed (v : Word64) (s : State) :
    seen (execAll [.seed64 v, .next64] s) (fun t => (t.responses.head?, t.g64.idx)) =
      some (some ⟨false, 0, resultWord (temper params64
        (readWord (twist params64 (fill params64 v s.g64.mt)) 0))⟩, 1) := by
  have e := exec_eq_finish64 (i := .seed64 v) rfl s
  rw [result64, genSeed, finish64_done] at e
  generalize fill params64 v s.g64.mt = mt at e
  simp only [execAll, e]
  rw [exec_eq_finish64 (i := .next64) rfl, result64, genNext_justSeeded _ _ _ (by decide), finish64_done]
  rfl

/-- R178's example: `SEED64 5489` then `NEXT64`, from every state: 14514284786278117030. -/
theorem test_seed64_next64 (s : State) :
    seen (execAll [.seed64 5489, .next64] s) (fun t => (t.responses.head?, t.g64.idx)) =
      some (some ⟨false, 0, 14514284786278117030⟩, 1) := by
  rw [next64_after_seed, test_twist64, test_temper64.2.2.2.2]
  rfl

/-! ### Assembler (R91, R92) -/

/-- Program P1's first two lines, with a comment, a lower-case mnemonic and a hexadecimal operand. -/
theorem test_assembler_text :
    assembleText "seed32 0x1571 ; default\nNEXT32\n".toList =
      some [⟨0x0001, 0x1571⟩, ⟨0x0005, 0⟩] := by decide

/-- A pseudo-instruction in text, and its empty form (R92). -/
theorem test_assembler_pseudo :
    assembleText "SEEDKEY64 0x12345, 74565".toList =
      some [⟨0x0102, 0⟩, ⟨0x0103, 0x12345⟩, ⟨0x0103, 0x12345⟩, ⟨0x0104, 0⟩] ∧
    assembleText "SEEDKEY32".toList = some [⟨0x0002, 0⟩, ⟨0x0004, 0⟩] := by decide

/-- An operand of `2^32` is rejected, not truncated (R91). -/
theorem test_assembler_rejects :
    assembleText "KEYPUSH32 4294967296".toList = none ∧ assembleText "SEED32".toList = none ∧
    assembleText "STAT64 0".toList = none ∧ assembleText "NEXTN32 0".toList = none := by decide

/-! ### Witnesses -/

/-- A command that answers a next state. -/
theorem completes_of {i : Instr} {s : State} (h : (seen (exec i s) (fun _ => ())).isSome = true) :
    ∃ t, exec i s = .next t := by
  cases he : exec i s with
  | next t => exact ⟨t, rfl⟩
  | fault f => rw [he] at h; cases h
  | refused r => rw [he] at h; cases h

theorem witness_EncodeInvertsDecode : decode ⟨0x0003, 0xFFFFFFFF⟩ = .ok (.keypush32 0xFFFFFFFF) := by
  decide

/-- One pair for each clause, the operand tests at the least `DATA` that fails them. -/
theorem witness_IllegalPairsAreNamedInOrder :
    (Command.mk 0xF000 0).reservedBitsClear = false ∧
    ((Command.mk 0x0200 0).reservedBitsClear = true ∧ (Command.mk 0x0200 0).unitLegal = false) ∧
    ((Command.mk 0x0107 0).reservedBitsClear = true ∧ (Command.mk 0x0107 0).unitLegal = true ∧
      (Command.mk 0x0107 0).opLegal = false) ∧
    ((Command.mk 0x0003 0x100000000).reservedBitsClear = true ∧
      unitNumber (Command.mk 0x0003 0x100000000) = 0 ∧ opNumber (Command.mk 0x0003 0x100000000) = 3 ∧
      2 ^ 32 ≤ (Command.mk 0x0003 0x100000000).data.toNat) ∧
    ((Command.mk 0x0106 1).reservedBitsClear = true ∧ (Command.mk 0x0106 1).unitLegal = true ∧
      opNumber (Command.mk 0x0106 1) = 6 ∧ (Command.mk 0x0106 1).data ≠ 0) ∧
    ((Command.mk 0x0001 0x100000000).reservedBitsClear = true ∧
      (Command.mk 0x0001 0x100000000).unitLegal = true ∧
      (Command.mk 0x0001 0x100000000).opLegal = true ∧
      (Command.mk 0x0001 0x100000000).operandBitsClear = false) := by decide

theorem witness_AssembledLineDecodesToItself :
    (AsmLine.mk .keypush .g32 (some 4294967295)).WellFormed = true ∧
    (AsmLine.mk .keypush .g32 (some 4294967296)).WellFormed = false := by decide

theorem witness_PseudoInstructionsExpand :
    (∀ k ∈ [0, 4294967295], k < 2 ^ GenId.width .g32) ∧ 1 ≤ 1 := by decide

theorem witness_AssemblerReadsTextAsWritten :
    ("NEXT32", Stem.op .next, GenId.g32) ∈ mnemonics ∧
    parseMnemonic "keypush64".toList = some (.op .keypush, .g64) ∧
    "next32".toList.map Char.toLower = "NEXT32".toList.map Char.toLower ∧ ';' ∉ "NEXT32 ".toList ∧
    parseNumber "10".toList = some 10 ∧ parseNumber "0x1f".toList = some 31 := by decide

theorem witness_AssemblyProgramsReadLineByLine :
    parseMnemonic "SEEDDEF32".toList = some (.seedDef, .g32) ∧
    parseMnemonic "nextn64".toList = some (.nextN, .g64) ∧
    parseMnemonic "SEEDKEY32".toList = some (.seedKey, .g32) ∧
    ('\n' ∉ "SEED32 1".toList ∧
      parseLine "SEED32 1".toList = some [.line ⟨.seed, .g32, some 1⟩]) ∧
    ('\n' ∉ " ; nothing".toList ∧ parseLine " ; nothing".toList = some []) ∧
    ('\n' ∉ "SEED16 1".toList ∧ parseLine "SEED16 1".toList = none) := by decide

theorem witness_StepRunsTheDecodedCommand :
    (sending 0x0005 0 small).pending = [.command ⟨0x0005, 0⟩] ∧ decode ⟨0x0005, 0⟩ = .ok .next32 := by
  decide

theorem witness_FetchedWordIsTheOneThatRuns :
    decodeTableWord 80 0xFFFFFFFFFFFFFFFF0103 = some (.keypush64 0xFFFFFFFFFFFFFFFF) := by decide

/-- A pair for each value of `UNIT` that the statement tells apart. -/
theorem witness_IllegalPairIsRefusedAndRecorded :
    ((sending 0x0007 0 small).pending = [.command ⟨0x0007, 0⟩] ∧
      decode ⟨0x0007, 0⟩ = .error .reservedOp ∧ unitNumber ⟨0x0007, 0⟩ = 0) ∧
    ((sending 0x0105 1 small).pending = [.command ⟨0x0105, 1⟩] ∧
      decode ⟨0x0105, 1⟩ = .error .unexpectedData ∧ unitNumber ⟨0x0105, 1⟩ = 1) ∧
    ((sending 0x0201 0 small).pending = [.command ⟨0x0201, 0⟩] ∧
      decode ⟨0x0201, 0⟩ = .error .reservedUnit ∧ unitNumber ⟨0x0201, 0⟩ = 2) := by decide

theorem witness_IdleLosesNoState : small.pending = [] := rfl

theorem witness_ResetEventUnseedsBothGenerators :
    (offerEvent .reset (at32 5 true 3 4)).pending = [.reset] := rfl

/-- An operand on each side of `2^32`, and the refused pair waiting. -/
theorem witness_Seed32FillsTheArrayAndSeeds :
    (0xFFFFFFFF : BitVec 64).toNat < 2 ^ 32 ∧ 2 ^ 32 ≤ (0x100000000 : BitVec 64).toNat ∧
    (sending 0x0001 0x100000000 small).pending = [.command ⟨0x0001, 0x100000000⟩] := by decide

theorem witness_Keyclr32EmptiesTheKey :
    (1 : BitVec 64) ≠ 0 ∧ (sending 0x0002 1 small).pending = [.command ⟨0x0002, 1⟩] := by decide

theorem witness_Keyclr64EmptiesTheKey :
    (1 : BitVec 64) ≠ 0 ∧ (sending 0x0102 1 small).pending = [.command ⟨0x0102, 1⟩] := by decide

/-- A full buffer, one with room for one word, and an empty one. -/
theorem witness_Keypush32AppendsOneWord :
    (sending 0x0003 0x100000000 small).pending = [.command ⟨0x0003, 0x100000000⟩] ∧
    (at32 0 false 4 0).g32.klen.toNat ≤ (at32 0 false 4 0).g32.key.length ∧
    (at32 0 false 4 0).g32.key.length ≤ 65535 ∧
    (at32 0 false 4 0).g32.klen.toNat = (at32 0 false 4 0).g32.key.length ∧
    (at32 0 false 3 0).g32.klen.toNat < (at32 0 false 3 0).g32.key.length ∧
    small.g32.klen.toNat < small.g32.key.length ∧
    (0xFFFFFFFF : BitVec 64).toNat < 2 ^ 32 ∧ 2 ^ 32 ≤ (0x100000000 : BitVec 64).toNat := by decide

theorem witness_Keypush64AppendsOneWord :
    (at64 0 false 4 0).g64.klen.toNat ≤ (at64 0 false 4 0).g64.key.length ∧
    (at64 0 false 4 0).g64.key.length ≤ 65535 ∧
    (at64 0 false 4 0).g64.klen.toNat = (at64 0 false 4 0).g64.key.length ∧
    (at64 0 false 3 0).g64.klen.toNat < (at64 0 false 3 0).g64.key.length ∧
    small.g64.klen.toNat < small.g64.key.length := by decide

/-- An empty key, a key of one word, and one that fills the buffer. -/
theorem witness_Seedarr32WeavesTheKey :
    (1 : BitVec 64) ≠ 0 ∧ (sending 0x0004 1 small).pending = [.command ⟨0x0004, 1⟩] ∧
    small.g32.klen = 0 ∧
    ((at32 0 false 1 0).g32.klen ≠ 0 ∧
      (at32 0 false 1 0).g32.klen.toNat ≤ (at32 0 false 1 0).g32.key.length) ∧
    ((at32 0 false 4 0).g32.klen ≠ 0 ∧
      (at32 0 false 4 0).g32.klen.toNat ≤ (at32 0 false 4 0).g32.key.length) := by decide

theorem witness_Seedarr64WeavesTheKey :
    (1 : BitVec 64) ≠ 0 ∧ (sending 0x0104 1 small).pending = [.command ⟨0x0104, 1⟩] ∧
    small.g64.klen = 0 ∧
    ((at64 0 false 1 0).g64.klen ≠ 0 ∧
      (at64 0 false 1 0).g64.klen.toNat ≤ (at64 0 false 1 0).g64.key.length) ∧
    ((at64 0 false 4 0).g64.klen ≠ 0 ∧
      (at64 0 false 4 0).g64.klen.toNat ≤ (at64 0 false 4 0).g64.key.length) := by decide

/-- Unseeded; the first and the last word of a batch; the batch used up. -/
theorem witness_Next32EmitsTheNextWord :
    (1 : BitVec 64) ≠ 0 ∧ (sending 0x0005 1 small).pending = [.command ⟨0x0005, 1⟩] ∧
    small.g32.seeded = false ∧
    ((at32 0 true 0 0).g32.seeded = true ∧ (at32 0 true 0 0).g32.idx.toNat < 624) ∧
    ((at32 623 true 0 0).g32.seeded = true ∧ (at32 623 true 0 0).g32.idx.toNat < 624) ∧
    ((at32 624 true 0 0).g32.seeded = true ∧ (at32 624 true 0 0).g32.idx = 624) := by decide

theorem witness_Next64EmitsTheNextWord :
    (1 : BitVec 64) ≠ 0 ∧ (sending 0x0105 1 small).pending = [.command ⟨0x0105, 1⟩] ∧
    small.g64.seeded = false ∧
    ((at64 0 true 0 0).g64.seeded = true ∧ (at64 0 true 0 0).g64.idx.toNat < 312) ∧
    ((at64 311 true 0 0).g64.seeded = true ∧ (at64 311 true 0 0).g64.idx.toNat < 312) ∧
    ((at64 312 true 0 0).g64.seeded = true ∧ (at64 312 true 0 0).g64.idx = 312) := by decide

theorem witness_Stat32ReadsTheStatus :
    (1 : BitVec 64) ≠ 0 ∧ (sending 0x0006 1 small).pending = [.command ⟨0x0006, 1⟩] := by decide

theorem witness_Stat64ReadsTheStatus :
    (1 : BitVec 64) ≠ 0 ∧ (sending 0x0106 1 small).pending = [.command ⟨0x0106, 1⟩] := by decide

theorem witness_WeavePointersStayInRange : 1 ≤ 1 := Nat.le_refl 1

/-- Two states with different arrays and the same key, on which all four commands complete. -/
theorem witness_SeedingForgetsThePast :
    (∃ s' t', exec (.seed32 5489) small = .next s' ∧ exec (.seed32 5489) (at32 7 true 1 3) = .next t') ∧
    (∃ s' t', exec (.seed64 5489) small = .next s' ∧ exec (.seed64 5489) (at64 7 true 1 3) = .next t') ∧
    ((at32 0 false 1 0).g32.klen ≠ 0 ∧ (at32 0 false 1 0).g32.klen = (at32 7 true 1 3).g32.klen ∧
      (at32 0 false 1 0).g32.key.take 1 = (at32 7 true 1 3).g32.key.take 1 ∧
      (∃ s', exec .seedarr32 (at32 0 false 1 0) = .next s') ∧
      ∃ t', exec .seedarr32 (at32 7 true 1 3) = .next t') ∧
    ((at64 0 false 1 0).g64.klen ≠ 0 ∧ (at64 0 false 1 0).g64.klen = (at64 7 true 1 3).g64.klen ∧
      (at64 0 false 1 0).g64.key.take 1 = (at64 7 true 1 3).g64.key.take 1 ∧
      (∃ s', exec .seedarr64 (at64 0 false 1 0) = .next s') ∧
      ∃ t', exec .seedarr64 (at64 7 true 1 3) = .next t') :=
  ⟨⟨_, _, rfl, rfl⟩, ⟨_, _, rfl, rfl⟩,
    ⟨by decide, by decide, by decide, completes_of (by decide), completes_of (by decide)⟩,
    ⟨by decide, by decide, by decide, completes_of (by decide), completes_of (by decide)⟩⟩

/-- An empty key on a seeded generator; an unseeded one that a `SEED` seeds. -/
theorem witness_EmptyKeyLeavesNoUsableGenerator :
    (at32 1 true 0 0).g32.klen = 0 ∧ (at64 1 true 0 0).g64.klen = 0 ∧
    (small.g32.seeded = false ∧ ∃ t, exec (.seed32 0) small = .next t ∧ t.g32.seeded = true) ∧
    (small.g64.seeded = false ∧ ∃ t, exec (.seed64 0) small = .next t ∧ t.g64.seeded = true) :=
  ⟨rfl, rfl, ⟨rfl, _, rfl, rfl⟩, ⟨rfl, _, rfl, rfl⟩⟩

theorem witness_UnseededNextIsRefused : small.g32.seeded = false ∧ small.g64.seeded = false :=
  ⟨rfl, rfl⟩

theorem witness_FullKeyBufferRefusesAPush :
    (at32 0 false 4 0).g32.klen.toNat = (at32 0 false 4 0).g32.key.length ∧
    (at64 0 false 4 0).g64.klen.toNat = (at64 0 false 4 0).g64.key.length := by decide

/-- An error on a generator with no record, and one on a generator that has one. -/
theorem witness_FirstErrorSticks :
    ((sending 0x0005 0 small).pending = [.command ⟨0x0005, 0⟩] ∧
      ∃ t, step (sending 0x0005 0 small) = .next t ∧ t.g32.err = 2) ∧
    ((sending 0x0104 0 (at64 0 true 0 3)).pending = [.command ⟨0x0104, 0⟩] ∧
      ∃ t, step (sending 0x0104 0 (at64 0 true 0 3)) = .next t ∧ t.g64.err = 3) :=
  ⟨⟨rfl, _, rfl, rfl⟩, ⟨rfl, _, rfl, rfl⟩⟩

/-- An error that writes `SEEDED`, and one that does not. -/
theorem witness_ErrorsArePrecise :
    (∃ t r, step (sending 0x0004 0 (at32 1 true 0 0)) = .next t ∧ t.responses = [r] ∧ r.errf = true ∧
      t.g32.seeded ≠ (at32 1 true 0 0).g32.seeded) ∧
    (∃ t r, step (sending 0x0104 0 (at64 1 true 0 0)) = .next t ∧ t.responses = [r] ∧ r.errf = true ∧
      t.g64.seeded ≠ (at64 1 true 0 0).g64.seeded) ∧
    (∃ t r, step (sending 0x0205 0 small) = .next t ∧ t.responses = [r] ∧ r.errf = true) :=
  ⟨⟨_, _, rfl, rfl, rfl, by decide⟩, ⟨_, _, rfl, rfl, rfl, by decide⟩, ⟨_, _, rfl, rfl, rfl⟩⟩

theorem witness_EveryCommandAnswersOnce :
    (sending 0x0006 0 small).pending = [.command ⟨0x0006, 0⟩] ∧
      ∃ t, step (sending 0x0006 0 small) = .next t := ⟨rfl, _, rfl⟩

theorem witness_OnlyNextAndStatReturnData :
    (∃ t, exec .keyclr32 small = .next t) ∧ ∃ t, exec .next32 small = .next t := ⟨⟨_, rfl⟩, ⟨_, rfl⟩⟩

/-- The invariant in a state that a run reaches, at both ends of its ranges, before a step. -/
theorem witness_StepKeepsTheInvariant :
    BlockInv (sending 0x0002 0 (at32 624 true 4 4)) ∧ BlockInv (sending 0x0105 0 small) ∧
      ∃ t, step (sending 0x0002 0 (at32 624 true 4 4)) = .next t :=
  ⟨by decide, by decide, _, rfl⟩

theorem witness_EveryStepCompletes : BlockInv (at64 312 true 4 4) := by decide

theorem witness_EveryRunAnswersEveryCommand :
    BlockInv (sending 0x0001 0 small) ∧
      (sending 0x0001 0 small).pending = [Command.mk 0x0001 0].map HostEvent.command := by decide

/-- A run that stays clean and one that does not. -/
theorem witness_StickyRecordsShowACleanRun :
    CleanRun (sending 0x0002 0 small) ∧ (sending 0x0002 0 small).g32.err = 0 ∧
    (sending 0x0002 0 small).g64.err = 0 ∧
    (sending 0x0002 0 small).pending = [Command.mk 0x0002 0].map HostEvent.command ∧
    (∀ c ∈ [Command.mk 0x0002 0, Command.mk 0x0105 0], unitNumber c ≤ 1) ∧
    (∃ t, Sys2Proof.core.run 1 (sending 0x0002 0 small) = .next t) ∧
    (sending 0x0105 0 small).pending = [Command.mk 0x0105 0].map HostEvent.command ∧
    ∃ t, Sys2Proof.core.run 1 (sending 0x0105 0 small) = .next t :=
  ⟨by decide, rfl, rfl, rfl, by decide, ⟨_, rfl⟩, rfl, ⟨_, rfl⟩⟩

/-- A command to each generator, and a second state with the same generator and another neighbour. -/
theorem witness_CommandTouchesOnlyItsOwnGenerator :
    (∃ t, exec .keyclr32 small = .next t) ∧ (at64 5 true 2 1).g32 = small.g32 ∧
    (at64 5 true 2 1).g64.idx ≠ small.g64.idx ∧
    (∃ t, exec .keyclr64 small = .next t) ∧ (at32 5 true 2 1).g64 = small.g64 ∧
    (at32 5 true 2 1).g32.idx ≠ small.g32.idx :=
  ⟨⟨_, rfl⟩, rfl, by decide, ⟨_, rfl⟩, rfl, by decide⟩

theorem witness_GeneratorsNeverInteract :
    ∃ t, execAll [.keyclr32, .next64, .keypush32 7] small = .next t := ⟨_, rfl⟩

theorem witness_CommandsToDifferentGeneratorsCommute :
    BlockInv small ∧ Instr.unit .next32 ≠ Instr.unit (.seed64 1) := by decide

/-- Two states that differ in every element that is unspecified. -/
theorem witness_UnspecifiedContentsAreNeverObserved :
    Same (sending 0x0005 0 small) (sending 0x0005 0 { small with
      g32 := { small.g32 with mt := Vector.replicate 624 1, idx := 9, key := [1, 2, 3, 4] } }) ∧
    (∃ t, step (sending 0x0005 0 small) = .next t) :=
  ⟨⟨⟨rfl, rfl, rfl, rfl, rfl, fun h => by cases h⟩, ⟨rfl, rfl, rfl, rfl, rfl, fun h => by cases h⟩,
    rfl, rfl⟩, _, rfl⟩

theorem witness_OnlyListedCommandsWrite :
    (∃ t, exec .stat32 small = .next t) ∧ (∃ t, exec .keyclr64 small = .next t) ∧
    ∃ t, exec (.seed32 1) small = .next t := ⟨⟨_, rfl⟩, ⟨_, rfl⟩, ⟨_, rfl⟩⟩

/-- Unseeded; seeded at 0, at `N - 1` and at `N`; an empty key and a full one. -/
theorem witness_LifecycleOfG32 :
    GenInv small.g32 ∧ GenInv (at32 0 true 0 0).g32 ∧ GenInv (at32 623 true 4 4).g32 ∧
    GenInv (at32 624 true 4 4).g32 ∧ Instr.unit .next32 = .g32 := by decide

theorem witness_LifecycleOfG64 :
    GenInv small.g64 ∧ GenInv (at64 0 true 0 0).g64 ∧ GenInv (at64 311 true 4 4).g64 ∧
    GenInv (at64 312 true 4 4).g64 ∧ Instr.unit .next64 = .g64 := by decide

/-- The empty key, and one that fills the buffer. -/
theorem witness_PushedKeyIsHeldInOrder :
    ([] : List Word32).length ≤ small.g32.key.length ∧
    ([1, 2, 3, 4] : List Word32).length ≤ small.g32.key.length ∧ small.g32.key.length ≤ 65535 ∧
    ([1, 2, 3, 4] : List Word64).length ≤ small.g64.key.length ∧ small.g64.key.length ≤ 65535 := by
  decide

theorem witness_BootSequencesSucceed :
    small.g32.klen = 0 ∧ ([7] : List Word32) ≠ [] ∧ ([7] : List Word32).length ≤ small.g32.key.length ∧
    small.g32.key.length ≤ 65535 ∧
    small.g64.klen = 0 ∧ ([1, 2, 3, 4] : List Word64) ≠ [] ∧
    ([1, 2, 3, 4] : List Word64).length ≤ small.g64.key.length ∧ small.g64.key.length ≤ 65535 := by
  decide

theorem witness_BatchOfG32IsEmittedInOrder :
    (at32 624 true 0 0).g32.seeded = true ∧ (at32 624 true 0 0).g32.idx = 624 ∧
    (1 ≤ 1 ∧ 1 ≤ 624) ∧ (1 ≤ 624 ∧ 624 ≤ 624) := by decide

theorem witness_BatchOfG64IsEmittedInOrder :
    (at64 312 true 0 0).g64.seeded = true ∧ (at64 312 true 0 0).g64.idx = 312 ∧
    (1 ≤ 1 ∧ 1 ≤ 312) ∧ (1 ≤ 312 ∧ 312 ≤ 312) := by decide

theorem witness_StatRepeatsAndNextConsumes :
    ((at32 0 true 0 0).g32.seeded = true ∧ (at32 0 true 0 0).g32.idx.toNat ≤ 624) ∧
    ((at32 624 true 0 0).g32.seeded = true ∧ (at32 624 true 0 0).g32.idx.toNat ≤ 624) ∧
    ((at64 0 true 0 0).g64.seeded = true ∧ (at64 0 true 0 0).g64.idx.toNat ≤ 312) ∧
    ((at64 312 true 0 0).g64.seeded = true ∧ (at64 312 true 0 0).g64.idx.toNat ≤ 312) := by decide

theorem witness_UnreachableStatesStop :
    ((at32 625 true 0 0).g32.seeded = true ∧ 624 < (at32 625 true 0 0).g32.idx.toNat) ∧
    ((at64 313 true 0 0).g64.seeded = true ∧ 312 < (at64 313 true 0 0).g64.idx.toNat) ∧
    (at32 0 false 5 0).g32.key.length < (at32 0 false 5 0).g32.klen.toNat ∧
    (at64 0 false 5 0).g64.key.length < (at64 0 false 5 0).g64.klen.toNat := by decide

end Sys2Proof.Tests
end

/-! ## A command and its own generator (00_scope.md R3, 10_state.md R40) -/

section

namespace Sys2Proof.Proofs

open Sys2Proof Sys2Proof.Machine Sys2Proof.Laws

/-- The end of a `G32` command writes one generator and adds one response, and neither depends on the
state it is written into. -/
theorem finish32_next_anywhere {r : CmdResult 32 624 10} {s t : State}
    (h : finish32 r s = .next t) :
    ∃ g a, t = { s with g32 := g, responses := a :: s.responses } ∧
      ∀ s₂ : State,
        finish32 r s₂ = .next { s₂ with g32 := g, responses := a :: s₂.responses } := by
  obtain ⟨g, d, rfl, rfl⟩ | ⟨g, e, rfl, rfl⟩ := finish32_next h
  · exact ⟨g, successResponse d, rfl, finish32_done g d⟩
  · exact ⟨recordError e g, errorResponse e, rfl, finish32_raised g e⟩

/-- `finish32_next_anywhere` for `G64`. -/
theorem finish64_next_anywhere {r : CmdResult 64 312 9} {s t : State}
    (h : finish64 r s = .next t) :
    ∃ g a, t = { s with g64 := g, responses := a :: s.responses } ∧
      ∀ s₂ : State,
        finish64 r s₂ = .next { s₂ with g64 := g, responses := a :: s₂.responses } := by
  obtain ⟨g, d, rfl, rfl⟩ | ⟨g, e, rfl, rfl⟩ := finish64_next h
  · exact ⟨g, successResponse d, rfl, finish64_done g d⟩
  · exact ⟨recordError e g, errorResponse e, rfl, finish64_raised g e⟩

/-- A completing `G32` command makes the same update, of its own generator and the responses alone,
on every state with that generator. -/
theorem exec_next_of_same_g32 {i : Instr} {s t : State} (hu : i.unit = .g32)
    (h : exec i s = .next t) :
    ∃ g a, t = { s with g32 := g, responses := a :: s.responses } ∧
      ∀ s₂ : State, s₂.g32 = s.g32 →
        exec i s₂ = .next { s₂ with g32 := g, responses := a :: s₂.responses } := by
  rw [exec_eq_finish32 hu] at h
  obtain ⟨g, a, ht, hany⟩ := finish32_next_anywhere h
  refine ⟨g, a, ht, fun s₂ hg => ?_⟩
  rw [exec_eq_finish32 hu, hg, hany]

/-- `exec_next_of_same_g32` for `G64`. -/
theorem exec_next_of_same_g64 {i : Instr} {s t : State} (hu : i.unit = .g64)
    (h : exec i s = .next t) :
    ∃ g a, t = { s with g64 := g, responses := a :: s.responses } ∧
      ∀ s₂ : State, s₂.g64 = s.g64 →
        exec i s₂ = .next { s₂ with g64 := g, responses := a :: s₂.responses } := by
  rw [exec_eq_finish64 hu] at h
  obtain ⟨g, a, ht, hany⟩ := finish64_next_anywhere h
  refine ⟨g, a, ht, fun s₂ hg => ?_⟩
  rw [exec_eq_finish64 hu, hg, hany]

/-- R67: a command leaves the host's events to come as they are. -/
theorem exec_next_pending {i : Instr} {s t : State} (h : exec i s = .next t) :
    t.pending = s.pending := by
  rcases unit_cases i with hu | hu
  · obtain ⟨g, a, rfl, -⟩ := exec_next_of_same_g32 hu h
    rfl
  · obtain ⟨g, a, rfl, -⟩ := exec_next_of_same_g64 hu h
    rfl

/-- Settles O47: each command makes one update that its own generator alone decides. -/
theorem commandTouchesOnlyItsOwnGenerator : Obligations.CommandTouchesOnlyItsOwnGenerator := by
  unfold Obligations.CommandTouchesOnlyItsOwnGenerator
  intro i s t h
  refine ⟨exec_next_pending h, fun hu => ?_, fun hu => ?_⟩
  · obtain ⟨g, a, rfl, hsame⟩ := exec_next_of_same_g32 hu h
    exact ⟨rfl, fun s₂ hg => ⟨_, hsame s₂ hg, rfl, rfl, a, rfl, rfl⟩⟩
  · obtain ⟨g, a, rfl, hsame⟩ := exec_next_of_same_g64 hu h
    exact ⟨rfl, fun s₂ hg => ⟨_, hsame s₂ hg, rfl, rfl, a, rfl, rfl⟩⟩

end Sys2Proof.Proofs
end

/-! ## What a command can do to its generator, said once for both widths (10_state.md R40)

A `Request` is what a command pair asks of the generator it names, at that generator's width; `Answers`
is every way such a request can be answered, with its guard.  Each fact about a command is proved by
cases on `Answers`, and holds of both generators. -/

section

namespace Sys2Proof.Proofs

open Sys2Proof Sys2Proof.Machine Sys2Proof.Safety Sys2Proof.Laws Sys2Proof.Claims

/-- What a pair asks of a generator of `w`-bit words: one of the six operations, or the refusal of an
illegal pair that names it (R83, R204). -/
inductive Request (w : Nat) where
  | seed (v : BitVec w)
  | keyclr
  | keypush (v : BitVec w)
  | seedarr
  | next
  | stat
  | illegal

/-- The operation a request is for; an illegal pair is for none. -/
def Request.op {w : Nat} : Request w → Option Op
  | .seed _ => some .seed
  | .keyclr => some .keyclr
  | .keypush _ => some .keypush
  | .seedarr => some .seedarr
  | .next => some .next
  | .stat => some .stat
  | .illegal => none

variable {w n iw : Nat} {c : Params w n} {r : Request w} {g g' : Gen w n iw} {a : Response}

/-- The model's meaning of a request, on the generator alone. -/
def perform (c : Params w n) (r : Request w) (g : Gen w n iw) : CmdResult w n iw :=
  match r with
  | .seed v => genSeed c v g
  | .keyclr => genKeyclr g
  | .keypush v => genKeypush v g
  | .seedarr => genSeedarr c g
  | .next => genNext c g
  | .stat => genStat g
  | .illegal => .raised g .illegalCommand

/-- Everything a request can leave of its generator and answer, and when. -/
inductive Answers (c : Params w n) (g : Gen w n iw) : Request w → Gen w n iw → Response → Prop
  | seed (v : BitVec w) :
    Answers c g (.seed v) (seededWith (fill c v g.mt) g) (successResponse 0)
  | keyclr : Answers c g .keyclr { g with klen := 0 } (successResponse 0)
  | pushFull (v : BitVec w) (hfull : g.klen.toNat = g.key.length) :
    Answers c g (.keypush v) (recordError .keyOverflow g) (errorResponse .keyOverflow)
  | push (v : BitVec w) (hroom : g.klen.toNat < g.key.length) :
    Answers c g (.keypush v) { g with key := g.key.set g.klen.toNat v, klen := g.klen + 1 }
      (successResponse 0)
  | weaveEmpty (hempty : g.klen = 0) :
    Answers c g .seedarr (recordError .invalidInput { g with seeded := false })
      (errorResponse .invalidInput)
  | weave (hkey : g.klen ≠ 0) (hfits : g.klen.toNat ≤ g.key.length) :
    Answers c g .seedarr (seededWith (weave c g.key g.klen.toNat g.mt) g) (successResponse 0)
  | nextUnseeded (hunseeded : g.seeded = false) :
    Answers c g .next (recordError .invalidState g) (errorResponse .invalidState)
  | nextWithin (hseeded : g.seeded = true) (hidx : g.idx.toNat < n) :
    Answers c g .next { g with idx := g.idx + 1 }
      (successResponse (resultWord (temper c (readWord g.mt g.idx.toNat))))
  | nextUsedUp (hseeded : g.seeded = true) (hidx : g.idx.toNat = n) :
    Answers c g .next { g with mt := twist c g.mt, idx := 1 }
      (successResponse (resultWord (temper c (readWord (twist c g.mt) 0))))
  | stat : Answers c g .stat g (successResponse (statusWord g))
  | illegal : Answers c g .illegal (recordError .illegalCommand g) (errorResponse .illegalCommand)

/-! ### `Answers` is the model's `perform` -/

/-- The generator and the response at the end of a command; none where it is stuck. -/
def ending : CmdResult w n iw → Option (Gen w n iw × Response)
  | .done g d => some (g, successResponse d)
  | .raised g e => some (raiseError e g)
  | .stuck _ => none

theorem finish32_next_iff {q : CmdResult 32 624 10} {s t : State} :
    finish32 q s = .next t ↔
      ∃ g a, ending q = some (g, a) ∧ t = { s with g32 := g, responses := a :: s.responses } := by
  cases q <;> simp [ending, raiseError, eq_comm]

theorem finish64_next_iff {q : CmdResult 64 312 9} {s t : State} :
    finish64 q s = .next t ↔
      ∃ g a, ending q = some (g, a) ∧ t = { s with g64 := g, responses := a :: s.responses } := by
  cases q <;> simp [ending, raiseError, eq_comm]

theorem Answers.ending_perform (h : Answers c g r g' a) : ending (perform c r g) = some (g', a) := by
  cases h with
  | seed | keyclr | stat | illegal => rfl
  | pushFull v hfull => simp [perform, genKeypush_full hfull, ending, raiseError]
  | push v hroom => simp [perform, genKeypush_room hroom, ending]
  | weaveEmpty hempty => simp [perform, genSeedarr_empty hempty, ending, raiseError]
  | weave hkey hfits => simp [perform, genSeedarr_key hkey hfits, ending]
  | nextUnseeded hunseeded => simp [perform, genNext_unseeded hunseeded, ending, raiseError]
  | nextWithin hseeded hidx => simp [perform, genNext_within hseeded hidx, ending]
  | nextUsedUp hseeded hidx => simp [perform, genNext_usedUp hseeded hidx, ending]

/-- A `KEYPUSH` with its key length within the buffer is answered. -/
theorem exists_answers_keypush (c : Params w n) (v : BitVec w) (h : g.klen.toNat ≤ g.key.length) :
    ∃ g' a, Answers c g (.keypush v) g' a := by
  rcases Nat.lt_or_eq_of_le h with hroom | hfull
  · exact ⟨_, _, .push v hroom⟩
  · exact ⟨_, _, .pushFull v hfull⟩

/-- So is a `SEEDARR`. -/
theorem exists_answers_seedarr (c : Params w n) (h : g.klen.toNat ≤ g.key.length) :
    ∃ g' a, Answers c g .seedarr g' a := by
  by_cases hempty : g.klen = 0
  · exact ⟨_, _, .weaveEmpty hempty⟩
  · exact ⟨_, _, .weave hempty h⟩

/-- A `NEXT` with its index within the batch, where seeded, is answered. -/
theorem exists_answers_next (c : Params w n) (h : g.seeded = true → g.idx.toNat ≤ n) :
    ∃ g' a, Answers c g .next g' a := by
  rcases hs : g.seeded
  · exact ⟨_, _, .nextUnseeded hs⟩
  · rcases Nat.lt_or_eq_of_le (h hs) with hidx | hidx
    · exact ⟨_, _, .nextWithin hs hidx⟩
    · exact ⟨_, _, .nextUsedUp hs hidx⟩

/-- A request that is not stuck is answered: only the two guards of log 3 can stop one. -/
theorem exists_answers_of_ending (h : ending (perform c r g) ≠ none) :
    ∃ g' a, Answers c g r g' a := by
  cases r with
  | seed v => exact ⟨_, _, .seed v⟩
  | keyclr => exact ⟨_, _, .keyclr⟩
  | stat => exact ⟨_, _, .stat⟩
  | illegal => exact ⟨_, _, .illegal⟩
  | keypush v =>
    refine exists_answers_keypush c v (Nat.le_of_not_lt fun hbeyond => h ?_)
    simp [perform, genKeypush_beyond hbeyond, ending]
  | seedarr =>
    refine exists_answers_seedarr c (Nat.le_of_not_lt fun hbeyond => h ?_)
    simp [perform, genSeedarr_beyond hbeyond, ending]
  | next =>
    refine exists_answers_next c fun hs => Nat.le_of_not_lt fun hbeyond => h ?_
    simp [perform, genNext_beyond hs hbeyond, ending]

theorem ending_perform_iff : ending (perform c r g) = some (g', a) ↔ Answers c g r g' a := by
  refine ⟨fun h => ?_, Answers.ending_perform⟩
  obtain ⟨g₂, a₂, h₂⟩ := exists_answers_of_ending (c := c) (r := r) (g := g) (by simp [h])
  obtain ⟨rfl, rfl⟩ : g' = g₂ ∧ a = a₂ := by simpa [h] using h₂.ending_perform
  exact h₂

/-- The end of a request to `G32`: its answers, written into the state. -/
theorem finish32_perform_iff {r : Request 32} {g : Gen32} {s t : State} :
    finish32 (perform params32 r g) s = .next t ↔
      ∃ g' a, Answers params32 g r g' a ∧
        t = { s with g32 := g', responses := a :: s.responses } := by
  simp only [finish32_next_iff, ending_perform_iff]

/-- `finish32_perform_iff` for `G64`. -/
theorem finish64_perform_iff {r : Request 64} {g : Gen64} {s t : State} :
    finish64 (perform params64 r g) s = .next t ↔
      ∃ g' a, Answers params64 g r g' a ∧
        t = { s with g64 := g', responses := a :: s.responses } := by
  simp only [finish64_next_iff, ending_perform_iff]

/-! ### Commands and pairs as requests -/

/-- A `G32` command is a request for its operation. -/
theorem exec_eq_perform32 {i : Instr} (h : i.unit = .g32) :
    ∃ r : Request 32, r.op = some i.op ∧
      ∀ s, exec i s = finish32 (perform params32 r s.g32) s := by
  cases i with
  | seed32 v => exact ⟨.seed v, rfl, fun _ => rfl⟩
  | keyclr32 => exact ⟨.keyclr, rfl, fun _ => rfl⟩
  | keypush32 v => exact ⟨.keypush v, rfl, fun _ => rfl⟩
  | seedarr32 => exact ⟨.seedarr, rfl, fun _ => rfl⟩
  | next32 => exact ⟨.next, rfl, fun _ => rfl⟩
  | stat32 => exact ⟨.stat, rfl, fun _ => rfl⟩
  | seed64 | keyclr64 | keypush64 | seedarr64 | next64 | stat64 => cases h

/-- A `G64` command is a request for its operation. -/
theorem exec_eq_perform64 {i : Instr} (h : i.unit = .g64) :
    ∃ r : Request 64, r.op = some i.op ∧
      ∀ s, exec i s = finish64 (perform params64 r s.g64) s := by
  cases i with
  | seed64 v => exact ⟨.seed v, rfl, fun _ => rfl⟩
  | keyclr64 => exact ⟨.keyclr, rfl, fun _ => rfl⟩
  | keypush64 v => exact ⟨.keypush v, rfl, fun _ => rfl⟩
  | seedarr64 => exact ⟨.seedarr, rfl, fun _ => rfl⟩
  | next64 => exact ⟨.next, rfl, fun _ => rfl⟩
  | stat64 => exact ⟨.stat, rfl, fun _ => rfl⟩
  | seed32 | keyclr32 | keypush32 | seedarr32 | next32 | stat32 => cases h

@[simp] theorem instrOf_unit (u : GenId) (o : Op) (d : BitVec 64) : (instrOf u o d).unit = u := by
  cases u <;> cases o <;> rfl

/-- R82: a legal pair names the generator of its command. -/
theorem genOfField_of_decode {p : Command} {i : Instr} (h : decode p = .ok i) :
    genOfField p.unitField = some i.unit := by
  obtain ⟨u, o, hcmd, -, rfl⟩ := (decode_ok_iff p i).1 h
  obtain ⟨cmd, d⟩ := p
  subst hcmd
  rw [commandWord_unitField, genOfField_unitCode, instrOf_unit]

theorem raiseIllegal_g32 {p : Command} (h : genOfField p.unitField = some .g32) (s : State) :
    raiseIllegal p s = { s with
      g32 := recordError .illegalCommand s.g32,
      responses := errorResponse .illegalCommand :: s.responses } := by
  simp [raiseIllegal, h, raiseError]

theorem raiseIllegal_g64 {p : Command} (h : genOfField p.unitField = some .g64) (s : State) :
    raiseIllegal p s = { s with
      g64 := recordError .illegalCommand s.g64,
      responses := errorResponse .illegalCommand :: s.responses } := by
  simp [raiseIllegal, h, raiseError]

theorem raiseIllegal_reserved {p : Command} (h : genOfField p.unitField = none) (s : State) :
    raiseIllegal p s = { s with responses := errorResponse .illegalCommand :: s.responses } := by
  simp [raiseIllegal, h]

/-- A pair that names `G32` is a request to it, legal or not, in every state. -/
theorem step_eq_perform32 {p : Command} (h : genOfField p.unitField = some .g32) :
    ∃ r : Request 32, ∀ (s : State) (rest : List HostEvent), s.pending = .command p :: rest →
      step s = finish32 (perform params32 r s.g32) { s with pending := rest } := by
  rcases hd : decode p with why | i
  · refine ⟨.illegal, fun s rest hp => ?_⟩
    rw [step_illegal hp hd, raiseIllegal_g32 h]
    simp [perform]
  · have hu : i.unit = .g32 := by simpa [h, eq_comm] using genOfField_of_decode hd
    obtain ⟨r, -, hr⟩ := exec_eq_perform32 hu
    exact ⟨r, fun s rest hp => by rw [step_command hp hd, hr]⟩

/-- A pair that names `G64` is a request to it, legal or not, in every state. -/
theorem step_eq_perform64 {p : Command} (h : genOfField p.unitField = some .g64) :
    ∃ r : Request 64, ∀ (s : State) (rest : List HostEvent), s.pending = .command p :: rest →
      step s = finish64 (perform params64 r s.g64) { s with pending := rest } := by
  rcases hd : decode p with why | i
  · refine ⟨.illegal, fun s rest hp => ?_⟩
    rw [step_illegal hp hd, raiseIllegal_g64 h]
    simp [perform]
  · have hu : i.unit = .g64 := by simpa [h, eq_comm] using genOfField_of_decode hd
    obtain ⟨r, -, hr⟩ := exec_eq_perform64 hu
    exact ⟨r, fun s rest hp => by rw [step_command hp hd, hr]⟩

/-- A pair that names a reserved unit is refused, and no generator takes part. -/
theorem step_reserved {p : Command} (h : genOfField p.unitField = none) {s : State}
    {rest : List HostEvent} (hp : s.pending = .command p :: rest) :
    step s = .next { s with
      pending := rest, responses := errorResponse .illegalCommand :: s.responses } := by
  rcases hd : decode p with why | i
  · rw [step_illegal hp hd, raiseIllegal_reserved h]
  · simp [genOfField_of_decode hd] at h

/-- Everything a completing command can do: its own generator answers a request, and the other one is
left alone. -/
theorem exec_next_cases {i : Instr} {s t : State} (h : exec i s = .next t) :
    (i.unit = .g32 ∧ t.g64 = s.g64 ∧
      ∃ r a, r.op = some i.op ∧ Answers params32 s.g32 r t.g32 a) ∨
    (i.unit = .g64 ∧ t.g32 = s.g32 ∧
      ∃ r a, r.op = some i.op ∧ Answers params64 s.g64 r t.g64 a) := by
  rcases unit_cases i with hu | hu
  · obtain ⟨r, hop, hr⟩ := exec_eq_perform32 hu
    rw [hr, finish32_perform_iff] at h
    obtain ⟨g', a, ha, rfl⟩ := h
    exact .inl ⟨hu, rfl, r, a, hop, ha⟩
  · obtain ⟨r, hop, hr⟩ := exec_eq_perform64 hu
    rw [hr, finish64_perform_iff] at h
    obtain ⟨g', a, ha, rfl⟩ := h
    exact .inr ⟨hu, rfl, r, a, hop, ha⟩

/-- Everything a step that takes a pair can do: it takes that pair alone and adds one response, the
generator that `UNIT` names answers a request, and the rest is left alone. -/
theorem step_command_next_cases {p : Command} {rest : List HostEvent} {s t : State}
    (hp : s.pending = .command p :: rest) (h : step s = .next t) :
    ∃ a, t.pending = rest ∧ t.responses = a :: s.responses ∧
      ((unitNumber p = 0 ∧ t.g64 = s.g64 ∧ ∃ r, Answers params32 s.g32 r t.g32 a) ∨
        (unitNumber p = 1 ∧ t.g32 = s.g32 ∧ ∃ r, Answers params64 s.g64 r t.g64 a) ∨
        (1 < unitNumber p ∧ t.g32 = s.g32 ∧ t.g64 = s.g64 ∧ a = errorResponse .illegalCommand)) := by
  have hnum : unitNumber p = p.unitField.toNat := (unitField_toNat p).symm
  rw [hnum]
  rcases hu : genOfField p.unitField with _ | u
  · rw [step_reserved hu hp] at h
    cases h
    exact ⟨_, rfl, rfl, .inr (.inr ⟨genOfField_none.1 hu, rfl, rfl, rfl⟩)⟩
  · cases u with
    | g32 =>
      obtain ⟨r, hr⟩ := step_eq_perform32 hu
      rw [hr s rest hp, finish32_perform_iff] at h
      obtain ⟨g', a, ha, rfl⟩ := h
      exact ⟨a, rfl, rfl, .inl ⟨genOfField_g32.1 hu, rfl, r, ha⟩⟩
    | g64 =>
      obtain ⟨r, hr⟩ := step_eq_perform64 hu
      rw [hr s rest hp, finish64_perform_iff] at h
      obtain ⟨g', a, ha, rfl⟩ := h
      exact ⟨a, rfl, rfl, .inr (.inl ⟨genOfField_g64.1 hu, rfl, r, ha⟩)⟩

end Sys2Proof.Proofs
end

/-! ## The invariant (10_state.md R33, R36, R38) -/

section

namespace Sys2Proof.Proofs

open Sys2Proof Sys2Proof.Machine Sys2Proof.Safety Sys2Proof.Laws Sys2Proof.Claims

variable {w n iw : Nat} {c : Params w n} {r : Request w} {g g' : Gen w n iw} {a : Response}

theorem responseInv_success (d : BitVec 64) : ResponseInv (successResponse d) := by
  simp [ResponseInv]

theorem responseInv_error (e : ErrorKind) : ResponseInv (errorResponse e) := by
  obtain ⟨hne, hle⟩ := errorCode_range e
  exact ⟨⟨(nomatch ·), (absurd · hne)⟩, hle, fun _ => rfl⟩

/-- R86, R87, R201: what every answer has. -/
theorem Answers.responseInv (h : Answers c g r g' a) : ResponseInv a := by
  cases h with
  | seed | keyclr | push | weave | nextWithin | nextUsedUp | stat => exact responseInv_success _
  | pushFull | weaveEmpty | nextUnseeded | illegal => exact responseInv_error _

/-- R36, R206: the record takes the code of the answer, zero on success, only while it is zero. -/
theorem Answers.err (h : Answers c g r g' a) : g'.err = if g.err = 0 then a.code else g.err := by
  cases h with
  | seed | keyclr | push | weave | nextWithin | nextUsedUp | stat => simp +contextual
  | pushFull | weaveEmpty | nextUnseeded | illegal => simp [recordError_err]

/-- An error changes only the record, which the invariant bounds by R201's codes. -/
theorem genInv_recordError (e : ErrorKind) (h : GenInv g) : GenInv (recordError e g) := by
  obtain ⟨hidx, hklen, hcap, hcap', herr⟩ := h
  refine ⟨by simpa using hidx, by simpa using hklen, by simpa using hcap, by simpa using hcap', ?_⟩
  rw [recordError_err]
  split
  · exact (errorCode_range e).2
  · exact herr

/-- A generator just seeded stands at `N`, which its index can hold. -/
theorem genInv_seededWith (hn : n < 2 ^ iw) (mt : Vector (BitVec w) n) (h : GenInv g) :
    GenInv (seededWith mt g) := by
  obtain ⟨-, hkey⟩ := h
  exact ⟨fun _ => by simp [Nat.mod_eq_of_lt hn], hkey⟩

theorem toNat_add_one {x : BitVec iw} (h : x.toNat + 1 < 2 ^ iw) : (x + 1).toNat = x.toNat + 1 := by
  simp [BitVec.toNat_add, Nat.mod_eq_of_lt h]

theorem toNat_one (h : 1 < 2 ^ iw) : (1 : BitVec iw).toNat = 1 := by
  simp [Nat.mod_eq_of_lt h]

/-- The invariant of a generator is kept by every request, of any generator whose index can hold
`N`. -/
theorem Answers.genInv (hn0 : 0 < n) (hn : n < 2 ^ iw) (h : Answers c g r g' a) (hg : GenInv g) :
    GenInv g' := by
  have ⟨hidx, hklen, hcap, hcap', herr⟩ := hg
  cases h with
  | seed => exact genInv_seededWith hn _ hg
  | keyclr => exact ⟨hidx, by simp, hcap, hcap', herr⟩
  | pushFull => exact genInv_recordError _ hg
  | push v hroom =>
    refine ⟨hidx, ?_, by simpa using hcap, by simpa using hcap', herr⟩
    simp only [List.length_set]
    bv_omega
  | weaveEmpty => exact genInv_recordError _ ⟨by simp, hklen, hcap, hcap', herr⟩
  | weave => exact genInv_seededWith hn _ hg
  | nextUnseeded => exact genInv_recordError _ hg
  | nextWithin hseeded hlt =>
    exact ⟨fun _ => (toNat_add_one (Nat.lt_of_le_of_lt hlt hn)).trans_le hlt, hklen, hcap, hcap', herr⟩
  | nextUsedUp hseeded hend =>
    exact ⟨fun _ => (toNat_one (Nat.lt_of_le_of_lt hn0 hn)).trans_le hn0, hklen, hcap, hcap', herr⟩
  | stat => exact hg
  | illegal => exact genInv_recordError _ hg

/-- R240: a request to a generator that meets the invariant completes. -/
theorem exists_answers (c : Params w n) (r : Request w) (hg : GenInv g) :
    ∃ g' a, Answers c g r g' a := by
  obtain ⟨hidx, hklen, -⟩ := hg
  cases r with
  | seed v => exact ⟨_, _, .seed v⟩
  | keyclr => exact ⟨_, _, .keyclr⟩
  | keypush v => exact exists_answers_keypush c v hklen
  | seedarr => exact exists_answers_seedarr c hklen
  | next => exact exists_answers_next c hidx
  | stat => exact ⟨_, _, .stat⟩
  | illegal => exact ⟨_, _, .illegal⟩

/-- A generator after reset meets the invariant, at any capacity of R15. -/
theorem genInv_reset {cap : Nat} (h1 : 1 ≤ cap) (h2 : cap ≤ 65535) :
    GenInv (Gen.reset cap : Gen w n iw) := by
  simp [GenInv, h1, h2]

/-- A reset of the block keeps the invariant: the capacities and the responses stay. -/
theorem blockInv_resetBlock {s : State} (h : BlockInv s) : BlockInv (resetBlock s) := by
  obtain ⟨⟨-, -, h32, h32', -⟩, ⟨-, -, h64, h64', -⟩, hres⟩ := h
  exact ⟨genInv_reset h32 h32', genInv_reset h64 h64', hres⟩

/-- A step that takes a pair, legal or not, keeps the invariant. -/
theorem blockInv_step_command {p : Command} {rest : List HostEvent} {s t : State}
    (hp : s.pending = .command p :: rest) (h : step s = .next t) (hs : BlockInv s) : BlockInv t := by
  obtain ⟨h32, h64, hres⟩ := hs
  obtain ⟨a, -, hresp, hcase⟩ := step_command_next_cases hp h
  have hcons : ResponseInv a → ∀ b ∈ t.responses, ResponseInv b := fun ha => by
    rw [hresp]
    exact List.forall_mem_cons.2 ⟨ha, hres⟩
  obtain ⟨-, hg64, r, ha⟩ | ⟨-, hg32, r, ha⟩ | ⟨-, hg32, hg64, rfl⟩ := hcase
  · exact ⟨ha.genInv (by decide) (by decide) h32, hg64 ▸ h64, hcons ha.responseInv⟩
  · exact ⟨hg32 ▸ h32, ha.genInv (by decide) (by decide) h64, hcons ha.responseInv⟩
  · exact ⟨hg32 ▸ h32, hg64 ▸ h64, hcons (responseInv_error _)⟩

/-- Settles O43: each of the four things a step can be keeps the invariant. -/
theorem stepKeepsTheInvariant : Obligations.StepKeepsTheInvariant := by
  unfold Obligations.StepKeepsTheInvariant
  intro s t hs h
  obtain ⟨-, hstep⟩ | ⟨rest, -, hstep⟩ | ⟨p, rest, i, hp, -⟩ | ⟨p, rest, why, hp, -⟩ := step_cases s
  · cases hstep.symm.trans h
    exact hs
  · cases hstep.symm.trans h
    exact blockInv_resetBlock hs
  · exact blockInv_step_command hp h hs
  · exact blockInv_step_command hp h hs

/-- Settles O42: R15's bounds on the capacities are those of the type that holds them. -/
theorem resetMeetsTheInvariant : Obligations.ResetMeetsTheInvariant := by
  unfold Obligations.ResetMeetsTheInvariant
  exact ⟨genInv_reset (Nat.le_add_left ..) Config.keyCap32Less1.isLt,
    genInv_reset (Nat.le_add_left ..) Config.keyCap64Less1.isLt, fun _ h => nomatch h⟩

/-- Settles O15: every field is read off the reset values. -/
theorem resetStateIsUnseededAndWaiting : Obligations.ResetStateIsUnseededAndWaiting := by
  unfold Obligations.ResetStateIsUnseededAndWaiting
  simp [State.reset]

end Sys2Proof.Proofs
end

/-! ## The sticky error records (10_state.md R36, 60_exceptions.md R206) -/

section

namespace Sys2Proof.Proofs

open Sys2Proof Sys2Proof.Machine Sys2Proof.Safety Sys2Proof.Laws Sys2Proof.Claims

/-- What a step that takes a pair does to the two records and the responses. -/
theorem step_command_records {p : Command} {rest : List HostEvent} {s t : State}
    (hp : s.pending = .command p :: rest) (h : step s = .next t) :
    ∃ a, t.pending = rest ∧ t.responses = a :: s.responses ∧ ResponseInv a ∧
      t.g32.err =
        (if s.g32.err ≠ 0 then s.g32.err else if unitNumber p = 0 then a.code else 0) ∧
      t.g64.err =
        (if s.g64.err ≠ 0 then s.g64.err else if unitNumber p = 1 then a.code else 0) := by
  obtain ⟨a, hrest, hresp, hcase⟩ := step_command_next_cases hp h
  refine ⟨a, hrest, hresp, ?_⟩
  obtain ⟨hu, hg64, r, ha⟩ | ⟨hu, hg32, r, ha⟩ | ⟨hu, hg32, hg64, rfl⟩ := hcase
  · refine ⟨ha.responseInv, ?_, ?_⟩
    · simp [ha.err, hu]
    · simp +contextual [hg64, hu]
  · refine ⟨ha.responseInv, ?_, ?_⟩
    · simp +contextual [hg32, hu]
    · simp [ha.err, hu]
  · refine ⟨responseInv_error _, ?_, ?_⟩
    · simp +contextual [hg32, Nat.ne_of_gt (Nat.zero_lt_of_lt hu)]
    · simp +contextual [hg64, Nat.ne_of_gt hu]

/-- Settles O38: the record of the named generator follows its answer, the other one stays. -/
theorem firstErrorSticks : Obligations.FirstErrorSticks := by
  unfold Obligations.FirstErrorSticks
  intro s t p rest hp h
  obtain ⟨a, -, hresp, -, h32, h64⟩ := step_command_records hp h
  exact ⟨a, hresp, h32, h64⟩

theorem record_eq_zero_iff {err code : BitVec 4} {q : Prop} [Decidable q] :
    (if err ≠ 0 then err else if q then code else 0) = 0 ↔ err = 0 ∧ (q → code = 0) := by
  by_cases herr : err = 0
  · simp [herr]
  · rw [if_pos herr]
    exact iff_of_false herr fun ⟨h, _⟩ => herr h

/-- The records and the responses agree on whether there was an error. -/
def RecordsTell (s : State) : Prop := CleanRun s ↔ s.g32.err = 0 ∧ s.g64.err = 0

/-- A pair that names a generator leaves the records agreeing with the responses: an error is
recorded where nothing was, and a record that is not zero stays. -/
theorem recordsTell_step {p : Command} {rest : List HostEvent} {s t : State}
    (hp : s.pending = .command p :: rest) (hu : unitNumber p ≤ 1) (h : step s = .next t)
    (hs : RecordsTell s) : RecordsTell t := by
  obtain ⟨a, -, hresp, ⟨hflag, -⟩, h32, h64⟩ := step_command_records hp h
  have hclean : CleanRun t ↔ a.code = 0 ∧ CleanRun s := by
    rw [← hflag]
    simp [CleanRun, hresp]
  have hunit : unitNumber p = 0 ∨ unitNumber p = 1 := by omega
  rw [RecordsTell] at hs ⊢
  rw [hclean, hs, h32, h64, record_eq_zero_iff, record_eq_zero_iff]
  tauto

/-- A run of one step more begins with that step. -/
theorem run_succ {k : Nat} {s t : State} (h : Sys2Proof.core.run (k + 1) s = .next t) :
    ∃ u, step s = .next u ∧ Sys2Proof.core.run k u = .next t := by
  simp only [Host.Core.run] at h
  split at h
  · exact ⟨_, ‹_›, h⟩
  · cases h
  · cases h

/-- A run of pairs that name generators keeps the records agreeing with the responses. -/
theorem recordsTell_run (ps : List Command) (s t : State)
    (hp : s.pending = ps.map HostEvent.command) (hu : ∀ p ∈ ps, unitNumber p ≤ 1)
    (h : Sys2Proof.core.run ps.length s = .next t) (hs : RecordsTell s) : RecordsTell t := by
  induction ps generalizing s with
  | nil =>
    cases h
    exact hs
  | cons p ps ih =>
    obtain ⟨u, hstep, hrun⟩ := run_succ h
    obtain ⟨hup, hups⟩ := List.forall_mem_cons.1 hu
    obtain ⟨a, hrest, -⟩ := step_command_records hp hstep
    exact ih u hrest hups hrun (recordsTell_step hp hup hstep hs)

/-- Settles O46, by induction on the commands: at the start no error and no record, so they agree. -/
theorem stickyRecordsShowACleanRun : Obligations.StickyRecordsShowACleanRun := by
  unfold Obligations.StickyRecordsShowACleanRun
  intro ps s t hclean h32 h64 hp hu h
  exact recordsTell_run ps s t hp hu h (iff_of_true hclean ⟨h32, h64⟩)

end Sys2Proof.Proofs
end

/-! ## Unspecified contents (10_state.md R43, 70_reset_and_hazards.md R238) -/

section

namespace Sys2Proof.Proofs

open Sys2Proof Sys2Proof.Machine Sys2Proof.Safety Sys2Proof.Laws Sys2Proof.Claims

variable {w n iw : Nat} {c : Params w n} {r : Request w} {g g' h : Gen w n iw} {a : Response}

/-- After a word is put at place `k`, what stands up to it depends on what stood before it alone. -/
theorem take_set_congr {α : Type} {l l' : List α} {k m : Nat} (v : α) (hk : k < l.length)
    (hlen : l.length = l'.length) (htake : l.take k = l'.take k) (hm : m ≤ k + 1) :
    (l.set k v).take m = (l'.set k v).take m := by
  have hset : ∀ q : List α, k < q.length → (q.set k v).take m = (q.take k ++ [v]).take m := by
    intro q hq
    rw [List.set_eq_take_append_cons_drop, if_pos hq, List.append_cons,
      List.take_append_of_le_length (by simp; omega)]
  rw [hset l hk, hset l' (hlen ▸ hk), htake]

theorem genSame_recordError (e : ErrorKind) (hs : GenSame g h) :
    GenSame (recordError e g) (recordError e h) := by
  have ⟨_, herr, _⟩ := hs
  simpa [GenSame, recordError_err, herr] using hs

/-- The status shows the index only while seeded, and nothing else that may differ (R39). -/
theorem statusWord_congr (hs : GenSame g h) : statusWord g = statusWord h := by
  obtain ⟨hseeded, herr, hklen, -, -, hbatch⟩ := hs
  have hview : indexView g = indexView h := by
    rcases hg : g.seeded
    · simp [indexView, hg, ← hseeded]
    · simp [indexView, hg, ← hseeded, (hbatch hg).1]
  simp only [statusWord, hseeded, herr, hklen, hview]

/-- Two generators that differ in unspecified contents answer a request alike, and differ in such
contents alone again. -/
theorem Answers.same (hn : 2 ≤ n) (ha : Answers c g r g' a) (hs : GenSame g h) :
    ∃ h', Answers c h r h' a ∧ GenSame g' h' := by
  have ⟨hseeded, herr, hklen, hlen, htake, hbatch⟩ := hs
  cases ha with
  | seed v =>
    exact ⟨_, .seed v, rfl, herr, hklen, hlen, htake,
      fun _ => ⟨rfl, fill_forgets c v g.mt h.mt⟩⟩
  | keyclr => exact ⟨_, .keyclr, hseeded, herr, rfl, hlen, by simp, hbatch⟩
  | pushFull v hfull =>
    exact ⟨_, .pushFull v (hklen ▸ hlen ▸ hfull), genSame_recordError _ hs⟩
  | push v hroom =>
    refine ⟨_, .push v (hklen ▸ hlen ▸ hroom), hseeded, herr, by rw [hklen], by simp [hlen], ?_,
      hbatch⟩
    rw [← hklen] at htake ⊢
    exact take_set_congr v hroom hlen htake (by bv_omega)
  | weaveEmpty hempty =>
    exact ⟨_, .weaveEmpty (hklen ▸ hempty), genSame_recordError _
      ⟨rfl, herr, hklen, hlen, htake, by simp⟩⟩
  | weave hkey hfits =>
    refine ⟨_, .weave (hklen ▸ hkey) (hklen ▸ hlen ▸ hfits), rfl, herr, hklen, hlen, htake,
      fun _ => ⟨rfl, ?_⟩⟩
    rw [← hklen] at htake ⊢
    exact weave_forgets c g.key h.key _ g.mt h.mt (by bv_omega) hn
      fun j hj => keyWord_of_take_eq htake hj
  | nextUnseeded hunseeded =>
    exact ⟨_, .nextUnseeded (hseeded ▸ hunseeded), genSame_recordError _ hs⟩
  | nextWithin hon hlt =>
    obtain ⟨hidx, hmt⟩ := hbatch hon
    rw [hidx] at hlt
    rw [hidx, hmt]
    exact ⟨_, .nextWithin (hseeded ▸ hon) hlt, hseeded, herr, hklen, hlen, htake,
      fun _ => ⟨rfl, rfl⟩⟩
  | nextUsedUp hon hend =>
    obtain ⟨hidx, hmt⟩ := hbatch hon
    rw [hidx] at hend
    rw [hmt]
    exact ⟨_, .nextUsedUp (hseeded ▸ hon) hend, hseeded, herr, hklen, hlen, htake,
      fun _ => ⟨rfl, rfl⟩⟩
  | stat =>
    rw [statusWord_congr hs]
    exact ⟨h, .stat, hs⟩
  | illegal => exact ⟨_, .illegal, genSame_recordError _ hs⟩

/-- A reset keeps the capacity alone, which the two generators share. -/
theorem genSame_reset (hs : GenSame g h) :
    GenSame (Gen.reset g.key.length : Gen w n iw) (Gen.reset h.key.length) := by
  obtain ⟨-, -, -, hlen, -⟩ := hs
  simp [GenSame, hlen]

/-- A step that takes a pair is matched in a state with the same to come. -/
theorem same_step_command {p : Command} {rest : List HostEvent} {s t s' : State}
    (hp : s.pending = .command p :: rest) (hst : Same s t) (hstep : step s = .next s') :
    ∃ t', step t = .next t' ∧ Same s' t' := by
  obtain ⟨h32, h64, hpend, hresp⟩ := hst
  have hq : t.pending = .command p :: rest := hpend ▸ hp
  rcases hu : genOfField p.unitField with _ | u
  · rw [step_reserved hu hp] at hstep
    cases hstep
    exact ⟨_, step_reserved hu hq, h32, h64, rfl, by rw [hresp]⟩
  · cases u with
    | g32 =>
      obtain ⟨r, hr⟩ := step_eq_perform32 hu
      rw [hr s rest hp, finish32_perform_iff] at hstep
      obtain ⟨g', a, ha, rfl⟩ := hstep
      obtain ⟨h', ha', hsame⟩ := ha.same (by decide) h32
      refine ⟨_, (hr t rest hq).trans (finish32_perform_iff.2 ⟨h', a, ha', rfl⟩), ?_⟩
      exact ⟨hsame, h64, rfl, congrArg (a :: ·) hresp⟩
    | g64 =>
      obtain ⟨r, hr⟩ := step_eq_perform64 hu
      rw [hr s rest hp, finish64_perform_iff] at hstep
      obtain ⟨g', a, ha, rfl⟩ := hstep
      obtain ⟨h', ha', hsame⟩ := ha.same (by decide) h64
      refine ⟨_, (hr t rest hq).trans (finish64_perform_iff.2 ⟨h', a, ha', rfl⟩), ?_⟩
      exact ⟨h32, hsame, rfl, congrArg (a :: ·) hresp⟩

/-- Settles O50: each of the four things a step can be is matched. -/
theorem unspecifiedContentsAreNeverObserved :
    Obligations.UnspecifiedContentsAreNeverObserved := by
  unfold Obligations.UnspecifiedContentsAreNeverObserved
  intro s t s' hst hstep
  have ⟨h32, h64, hpend, hresp⟩ := hst
  obtain ⟨hp, hs⟩ | ⟨rest, hp, hs⟩ | ⟨p, rest, i, hp, -⟩ | ⟨p, rest, why, hp, -⟩ := step_cases s
  · cases hs.symm.trans hstep
    exact ⟨t, step_idle (hpend.symm.trans hp), hst⟩
  · cases hs.symm.trans hstep
    exact ⟨_, step_reset (hpend.symm.trans hp), genSame_reset h32, genSame_reset h64, rfl, hresp⟩
  · exact same_step_command hp hst hstep
  · exact same_step_command hp hst hstep

end Sys2Proof.Proofs
end

/-! ## What a command writes (10_state.md R40) -/

section

namespace Sys2Proof.Proofs

open Sys2Proof Sys2Proof.Machine Sys2Proof.Safety Sys2Proof.Laws Sys2Proof.Claims

variable {w n iw : Nat} {c : Params w n} {r : Request w} {g g' : Gen w n iw} {a : Response} {o : Op}

/-- R40's write columns, for one generator: what `o` leaves as it was. -/
structure WritesAsListed (o : Op) (g g' : Gen w n iw) : Prop where
  mt_idx : o ≠ .seed → o ≠ .seedarr → o ≠ .next → g'.mt = g.mt ∧ g'.idx = g.idx
  seeded : o ≠ .seed → o ≠ .seedarr → g'.seeded = g.seeded
  key    : o ≠ .keypush → g'.key = g.key
  klen   : o ≠ .keyclr → o ≠ .keypush → g'.klen = g.klen
  stat   : o = .stat → g' = g
  keyCap : g'.key.length = g.key.length

/-- A generator left alone is written as listed by any operation. -/
theorem WritesAsListed.refl (o : Op) (g : Gen w n iw) : WritesAsListed o g g where
  mt_idx _ _ _ := ⟨rfl, rfl⟩
  seeded _ _ := rfl
  key _ := rfl
  klen _ _ := rfl
  stat _ := rfl
  keyCap := rfl

/-- A legal request writes as its operation is listed. -/
theorem Answers.writesAsListed (h : Answers c g r g' a) (ho : r.op = some o) :
    WritesAsListed o g g' := by
  cases h with
  | illegal => cases ho
  | stat => exact .refl o g
  | seed | weave | keyclr | push | nextWithin | nextUsedUp => cases ho; constructor <;> simp
  | pushFull | weaveEmpty | nextUnseeded => cases ho; constructor <;> simp

/-- A command writes both generators as its operation is listed. -/
theorem exec_writesAsListed {i : Instr} {s t : State} (h : exec i s = .next t) :
    WritesAsListed i.op s.g32 t.g32 ∧ WritesAsListed i.op s.g64 t.g64 := by
  obtain ⟨-, hg64, r, a, ho, ha⟩ | ⟨-, hg32, r, a, ho, ha⟩ := exec_next_cases h
  · exact ⟨ha.writesAsListed ho, hg64 ▸ .refl ..⟩
  · exact ⟨hg32 ▸ .refl .., ha.writesAsListed ho⟩

/-- Settles O51: the listed writes of both generators, side by side. -/
theorem onlyListedCommandsWrite : Obligations.OnlyListedCommandsWrite := by
  unfold Obligations.OnlyListedCommandsWrite
  intro i s t h
  obtain ⟨w32, w64⟩ := exec_writesAsListed h
  refine ⟨fun h1 h2 h3 => ?_, fun h1 h2 => ⟨w32.seeded h1 h2, w64.seeded h1 h2⟩,
    fun h1 => ⟨w32.key h1, w64.key h1⟩, fun h1 h2 => ⟨w32.klen h1 h2, w64.klen h1 h2⟩,
    fun h1 => ⟨w32.stat h1, w64.stat h1⟩, w32.keyCap, w64.keyCap⟩
  obtain ⟨hmt32, hidx32⟩ := w32.mt_idx h1 h2 h3
  obtain ⟨hmt64, hidx64⟩ := w64.mt_idx h1 h2 h3
  exact ⟨hmt32, hmt64, hidx32, hidx64⟩

end Sys2Proof.Proofs
end

/-! ## The lifecycle of a generator (10_state.md R35) -/

section

namespace Sys2Proof.Proofs

open Sys2Proof Sys2Proof.Machine Sys2Proof.Safety Sys2Proof.Laws Sys2Proof.Claims

variable {w n iw : Nat} {c : Params w n} {r : Request w} {g g' : Gen w n iw} {a : Response} {o : Op}

/-- How an operation moves a generator between Unseeded, Seeded at `N` and Seeded below `N` (R35). -/
def Moves (o : Op) (g g' : Gen w n iw) : Prop :=
  (o = .seed → g'.seeded = true ∧ g'.idx.toNat = n) ∧
  (o = .seedarr → g.klen ≠ 0 → g'.seeded = true ∧ g'.idx.toNat = n) ∧
  (o = .seedarr → g.klen = 0 → g'.seeded = false) ∧
  (o = .next → g'.seeded = g.seeded ∧ (g.seeded = true →
    g'.idx.toNat = if g.idx.toNat = n then 1 else g.idx.toNat + 1)) ∧
  (o = .keyclr ∨ o = .keypush ∨ o = .stat → g'.seeded = g.seeded ∧ g'.idx = g.idx)

/-- A legal request moves its generator as R35 says, if the index can hold `N`. -/
theorem Answers.moves (hn0 : 0 < n) (hn : n < 2 ^ iw) (h : Answers c g r g' a)
    (ho : r.op = some o) : Moves o g g' := by
  cases h with
  | illegal => cases ho
  | keyclr | pushFull | push | stat => cases ho; simp [Moves]
  | seed => cases ho; simp [Moves, Nat.mod_eq_of_lt hn]
  | weave hkey hfits => cases ho; simpa [Moves, Nat.mod_eq_of_lt hn] using hkey
  | weaveEmpty hempty => cases ho; simp [Moves, hempty]
  | nextUnseeded hunseeded => cases ho; simp [Moves, hunseeded]
  | nextWithin hseeded hidx =>
    cases ho
    refine ⟨nofun, nofun, nofun, fun _ => ⟨rfl, fun _ => ?_⟩, by simp⟩
    rw [if_neg hidx.ne, toNat_add_one (Nat.lt_of_le_of_lt hidx hn)]
  | nextUsedUp hseeded hidx =>
    cases ho
    refine ⟨nofun, nofun, nofun, fun _ => ⟨rfl, fun _ => ?_⟩, by simp⟩
    rw [if_pos hidx, toNat_one (Nat.lt_of_le_of_lt hn0 hn)]

/-- Settles O52: a `G32` command completes, and its answer moves `G32` as R35 says. -/
theorem lifecycleOfG32 : Obligations.LifecycleOfG32 := by
  unfold Obligations.LifecycleOfG32
  intro i s hg hu
  obtain ⟨r, ho, hr⟩ := exec_eq_perform32 hu
  obtain ⟨g', a, ha⟩ := exists_answers params32 r hg
  exact ⟨_, (hr s).trans (finish32_perform_iff.2 ⟨g', a, ha, rfl⟩),
    ha.moves (by decide) (by decide) ho⟩

/-- Settles O53: a `G64` command completes, and its answer moves `G64` as R35 says. -/
theorem lifecycleOfG64 : Obligations.LifecycleOfG64 := by
  unfold Obligations.LifecycleOfG64
  intro i s hg hu
  obtain ⟨r, ho, hr⟩ := exec_eq_perform64 hu
  obtain ⟨g', a, ha⟩ := exists_answers params64 r hg
  exact ⟨_, (hr s).trans (finish64_perform_iff.2 ⟨g', a, ha, rfl⟩),
    ha.moves (by decide) (by decide) ho⟩

/-- Settles O59: the three operations with a guard of log 3, where it fails. -/
theorem unreachableStatesStop : Obligations.UnreachableStatesStop := by
  unfold Obligations.UnreachableStatesStop
  refine ⟨fun s hs hi => ?_, fun s hs hi => ?_, fun v s hk => ⟨?_, ?_⟩, fun v s hk => ⟨?_, ?_⟩⟩
  · rw [exec_eq_finish32 rfl, result32, genNext_beyond hs hi, finish32_stuck]
  · rw [exec_eq_finish64 rfl, result64, genNext_beyond hs hi, finish64_stuck]
  · rw [exec_eq_finish32 rfl, result32, genKeypush_beyond hk, finish32_stuck]
  · rw [exec_eq_finish32 rfl, result32, genSeedarr_beyond hk, finish32_stuck]
  · rw [exec_eq_finish64 rfl, result64, genKeypush_beyond hk, finish64_stuck]
  · rw [exec_eq_finish64 rfl, result64, genSeedarr_beyond hk, finish64_stuck]

end Sys2Proof.Proofs
end

/-! ## Pushing a key (10_state.md R37, R38) -/

section

namespace Sys2Proof.Proofs

open Sys2Proof Sys2Proof.Machine Sys2Proof.Safety Sys2Proof.Laws Sys2Proof.Claims

variable {w n iw : Nat}

/-- The generator `g` with `words` in its key buffer, the rest of the buffer as it is. -/
def holding (words : List (BitVec w)) (g : Gen w n iw) : Gen w n iw :=
  { g with key := words ++ g.key.drop words.length, klen := BitVec.ofNat 16 words.length }

theorem holding_klen_toNat {words : List (BitVec w)} {g : Gen w n iw} (h : words.length ≤ 65535) :
    (holding words g).klen.toNat = words.length := by
  simp only [holding, BitVec.toNat_ofNat]
  omega

theorem holding_key_length {words : List (BitVec w)} {g : Gen w n iw}
    (h : words.length ≤ g.key.length) : (holding words g).key.length = g.key.length := by
  simp [holding]
  omega

/-- A push onto some words that leave room holds one word more. -/
theorem genKeypush_holding {words : List (BitVec w)} {g : Gen w n iw} (v : BitVec w)
    (hroom : words.length < g.key.length) (hcap : g.key.length ≤ 65535) :
    genKeypush v (holding words g) = .done (holding (words ++ [v]) g) 0 := by
  have hklen : (holding words g).klen.toNat = words.length := holding_klen_toNat (by omega)
  rw [genKeypush_room (by rwa [hklen, holding_key_length hroom.le]), hklen]
  have hdrop : (g.key.drop words.length).set 0 v = v :: g.key.drop (words.length + 1) := by
    rw [List.drop_eq_getElem_cons hroom, List.set_cons_zero]
  simp [holding, hdrop, BitVec.ofNat_add]

theorem execAll_cons {i : Instr} {l : List Instr} {s t : State} (h : exec i s = .next t) :
    execAll (i :: l) s = execAll l t := by
  simp [execAll, h]

/-- Commands made of the items of a list, each of which adds its own item to what the state holds, up
to `cap` of them, hold the whole list. -/
theorem execAll_map {α : Type} {f : α → Instr} {held : List α → State} {cap : Nat}
    (hstep : ∀ done x, done.length < cap → exec (f x) (held done) = .next (held (done ++ [x])))
    (xs done : List α) (hfits : done.length + xs.length ≤ cap) :
    execAll (xs.map f) (held done) = .next (held (done ++ xs)) := by
  induction xs generalizing done with
  | nil => simp [execAll]
  | cons x xs ih =>
    rw [List.length_cons] at hfits
    rw [List.map_cons, execAll_cons (hstep done x (by omega)), ih _ (by simp; omega)]
    simp

/-- The state `s` after `words` were pushed to `G32` from an empty key: one success for each. -/
def held32 (s : State) (words : List Word32) : State :=
  { s with
    g32 := holding words s.g32,
    responses := List.replicate words.length (successResponse 0) ++ s.responses }

/-- `held32` for `G64`. -/
def held64 (s : State) (words : List Word64) : State :=
  { s with
    g64 := holding words s.g64,
    responses := List.replicate words.length (successResponse 0) ++ s.responses }

theorem exec_keyclr32_held (s : State) : exec .keyclr32 s =
    .next (held32 { s with responses := successResponse 0 :: s.responses } []) := rfl

theorem exec_keyclr64_held (s : State) : exec .keyclr64 s =
    .next (held64 { s with responses := successResponse 0 :: s.responses } []) := rfl

theorem exec_keypush32_held (s : State) (words : List Word32) (v : Word32)
    (hroom : words.length < s.g32.key.length) (hcap : s.g32.key.length ≤ 65535) :
    exec (.keypush32 v) (held32 s words) = .next (held32 s (words ++ [v])) := by
  rw [exec_eq_finish32 rfl, result32, held32, genKeypush_holding v hroom hcap, finish32_done]
  simp [held32, List.replicate_succ]

theorem exec_keypush64_held (s : State) (words : List Word64) (v : Word64)
    (hroom : words.length < s.g64.key.length) (hcap : s.g64.key.length ≤ 65535) :
    exec (.keypush64 v) (held64 s words) = .next (held64 s (words ++ [v])) := by
  rw [exec_eq_finish64 rfl, result64, held64, genKeypush_holding v hroom hcap, finish64_done]
  simp [held64, List.replicate_succ]

/-- Pushes of words that fit, from an empty key, all complete and are held in order. -/
theorem execAll_keypush32 (s : State) (key : List Word32) (hfits : key.length ≤ s.g32.key.length)
    (hcap : s.g32.key.length ≤ 65535) :
    execAll (key.map Instr.keypush32) (held32 s []) = .next (held32 s key) :=
  execAll_map (fun words v hroom => exec_keypush32_held s words v hroom hcap) key []
    (by simpa using hfits)

/-- `execAll_keypush32` for `G64`. -/
theorem execAll_keypush64 (s : State) (key : List Word64) (hfits : key.length ≤ s.g64.key.length)
    (hcap : s.g64.key.length ≤ 65535) :
    execAll (key.map Instr.keypush64) (held64 s []) = .next (held64 s key) :=
  execAll_map (fun words v hroom => exec_keypush64_held s words v hroom hcap) key []
    (by simpa using hfits)

/-- Settles O54: a cleared generator holds no word, and each push that fits adds its own. -/
theorem pushedKeyIsHeldInOrder : Obligations.PushedKeyIsHeldInOrder := by
  unfold Obligations.PushedKeyIsHeldInOrder
  constructor
  · intro key s hfits hcap
    have hpush := execAll_keypush32 { s with responses := successResponse 0 :: s.responses } key
    exact ⟨_, (execAll_cons (exec_keyclr32_held s)).trans (hpush hfits hcap),
      holding_klen_toNat (hfits.trans hcap), rfl, rfl, rfl, rfl⟩
  · intro key s hfits hcap
    have hpush := execAll_keypush64 { s with responses := successResponse 0 :: s.responses } key
    exact ⟨_, (execAll_cons (exec_keyclr64_held s)).trans (hpush hfits hcap),
      holding_klen_toNat (hfits.trans hcap), rfl, rfl, rfl, rfl⟩

end Sys2Proof.Proofs
end

/-! ## The pointers of the weave (20_memory.md R61, 40_seeding_pipelines.md R114, R115) -/

section

namespace Sys2Proof.Proofs

open Sys2Proof Sys2Proof.Machine Sys2Proof.Laws

variable {w n : Nat}

/-- R115: where the key phase leaves `i`. -/
theorem keyPhase_pointer (c : Params w n) (hn : 2 ≤ n) (key : List (BitVec w)) (len : Nat)
    (hl : 1 ≤ len) (mt : Vector (BitVec w) n) :
    (keyPhase c key len (weaveStart c mt)).i = 1 + max n len % (n - 1) := by
  rw [keyPhase]
  exact (keyStep_pointers c hn key len hl mt _).1

/-- R115: the `N - 1` steps of the second phase take `i` once round, to where it stood. -/
theorem secondPhase_pointer (c : Params w n) (hn : 2 ≤ n) (a : Nat) (v : WeaveVars w n)
    (hv : v.i = 1 + a % (n - 1)) : (secondPhase c v).i = 1 + a % (n - 1) := by
  rw [secondPhase, secondStep_pointer c hn a v hv, Nat.add_mod_right]

/-- Both pointers at every step of both phases, for a generator of any size. -/
theorem weave_pointers (c : Params w n) (hn : 2 ≤ n) (key : List (BitVec w)) (len m : Nat)
    (mt : Vector (BitVec w) n) (hl : 1 ≤ len) :
    (repeatStep (keyStep c key len) m (weaveStart c mt)).i = 1 + m % (n - 1) ∧
      (repeatStep (keyStep c key len) m (weaveStart c mt)).j = m % len ∧
      (repeatStep (secondStep c) m (keyPhase c key len (weaveStart c mt))).i =
        1 + (max n len + m) % (n - 1) ∧
      (secondPhase c (keyPhase c key len (weaveStart c mt))).i = 1 + max n len % (n - 1) := by
  obtain ⟨hi, hj⟩ := keyStep_pointers c hn key len hl mt m
  have hkey := keyPhase_pointer c hn key len hl mt
  exact ⟨hi, hj, secondStep_pointer c hn _ _ hkey m, secondPhase_pointer c hn _ _ hkey⟩

/-- Settles O29: the pointers of the weave at `N = 624` and at `N = 312`. -/
theorem weavePointersStayInRange : Obligations.WeavePointersStayInRange := by
  unfold Obligations.WeavePointersStayInRange
  exact ⟨weave_pointers params32 (by decide), weave_pointers params64 (by decide)⟩

end Sys2Proof.Proofs
end

/-! ## The two generators never interact (20_memory.md R68)

`genOf u s` is the generator that `u` names, so that each fact is stated and proved once for both. -/

section

namespace Sys2Proof.Proofs

open Sys2Proof Sys2Proof.Machine Sys2Proof.Safety Sys2Proof.Laws Sys2Proof.Claims

/-- The generator of the block that `u` names. -/
def genOf : GenId → State → Gen32 ⊕ Gen64
  | .g32, s => .inl s.g32
  | .g64, s => .inr s.g64

@[simp] theorem genOf_g32_inj {s t : State} : genOf .g32 s = genOf .g32 t ↔ s.g32 = t.g32 :=
  Sum.inl_injective.eq_iff

@[simp] theorem genOf_g64_inj {s t : State} : genOf .g64 s = genOf .g64 t ↔ s.g64 = t.g64 :=
  Sum.inr_injective.eq_iff

/-- Two different names are both names, so states that agree at both hold the same generators. -/
theorem generators_eq_of_genOf {u v : GenId} {s t : State} (huv : u ≠ v)
    (hu : genOf u s = genOf u t) (hv : genOf v s = genOf v t) : s.g32 = t.g32 ∧ s.g64 = t.g64 := by
  cases u <;> cases v
  · exact absurd rfl huv
  · exact ⟨genOf_g32_inj.1 hu, genOf_g64_inj.1 hv⟩
  · exact ⟨genOf_g32_inj.1 hv, genOf_g64_inj.1 hu⟩
  · exact absurd rfl huv

variable {i : Instr} {l : List Instr} {u : GenId} {s s₂ t : State} {a : Response}

/-- A completing command leaves the other generator alone. -/
theorem exec_next_other_gen (hu : i.unit ≠ u) (h : exec i s = .next t) : genOf u t = genOf u s := by
  obtain ⟨hi, hother, -⟩ | ⟨hi, hother, -⟩ := exec_next_cases h
  · cases u with
    | g32 => exact absurd hi hu
    | g64 => exact genOf_g64_inj.2 hother
  · cases u with
    | g32 => exact genOf_g32_inj.2 hother
    | g64 => exact absurd hi hu

/-- A completing command also completes in every state with its generator, with the same response and
the same generator at the end. -/
theorem exec_next_same_gen (h : exec i s = .next t) (hs : genOf i.unit s₂ = genOf i.unit s) :
    ∃ t₂ a, exec i s₂ = .next t₂ ∧ genOf i.unit t₂ = genOf i.unit t ∧
      t.responses = a :: s.responses ∧ t₂.responses = a :: s₂.responses := by
  rcases unit_cases i with hu | hu <;> rw [hu] at hs ⊢
  · obtain ⟨g, a, rfl, hany⟩ := exec_next_of_same_g32 hu h
    exact ⟨_, a, hany s₂ (genOf_g32_inj.1 hs), rfl, rfl, rfl⟩
  · obtain ⟨g, a, rfl, hany⟩ := exec_next_of_same_g64 hu h
    exact ⟨_, a, hany s₂ (genOf_g64_inj.1 hs), rfl, rfl, rfl⟩

/-! ### An interleaving -/

/-- A list of commands that runs begins with a command that completes. -/
theorem execAll_cons_next (h : execAll (i :: l) s = .next t) :
    ∃ m, exec i s = .next m ∧ execAll l m = .next t := by
  simp only [execAll] at h
  split at h
  · exact ⟨_, ‹_›, h⟩
  · cases h
  · cases h

theorem answersOf_cons_own (hu : i.unit = u) (h : exec i s = .next t)
    (ha : t.responses = a :: s.responses) :
    answersOf u (i :: l) s = a :: answersOf u l t := by
  simp [answersOf, h, hu, ha]

theorem answersOf_cons_other (hu : i.unit ≠ u) (h : exec i s = .next t) :
    answersOf u (i :: l) s = answersOf u l t := by
  simp [answersOf, h, hu]

/-- The commands of a list to one generator, run alone from any state with that generator, leave the
same generator and get the same responses. -/
theorem execAll_own_commands (h : execAll l s = .next t) (hs : genOf u s₂ = genOf u s) :
    ∃ t₂, execAll (l.filter (fun i => i.unit = u)) s₂ = .next t₂ ∧ genOf u t₂ = genOf u t ∧
      answersOf u (l.filter (fun i => i.unit = u)) s₂ = answersOf u l s := by
  induction l generalizing s s₂ with
  | nil =>
    cases h
    exact ⟨s₂, rfl, hs, rfl⟩
  | cons i l ih =>
    obtain ⟨m, hi, hl⟩ := execAll_cons_next h
    by_cases hu : i.unit = u
    · subst hu
      obtain ⟨m₂, a, hi₂, hm, ha, ha₂⟩ := exec_next_same_gen hi hs
      obtain ⟨t₂, hl₂, ht, hans⟩ := ih hl hm
      rw [List.filter_cons_of_pos (by simp), execAll_cons hi₂, answersOf_cons_own rfl hi₂ ha₂,
        answersOf_cons_own rfl hi ha, hans]
      exact ⟨t₂, hl₂, ht, rfl⟩
    · rw [List.filter_cons_of_neg (by simpa using hu), answersOf_cons_other hu hi]
      exact ih hl (hs.trans (exec_next_other_gen hu hi).symm)

/-- Settles O48: for each generator, its own commands of the list, from the list's own start. -/
theorem generatorsNeverInteract : Obligations.GeneratorsNeverInteract := by
  unfold Obligations.GeneratorsNeverInteract
  intro l s t h
  obtain ⟨u, hu, hgen, hans⟩ := execAll_own_commands (u := .g32) h rfl
  obtain ⟨v, hv, hgen', hans'⟩ := execAll_own_commands (u := .g64) h rfl
  exact ⟨⟨u, hu, genOf_g32_inj.1 hgen, hans⟩, ⟨v, hv, genOf_g64_inj.1 hgen', hans'⟩⟩

/-! ### Two commands -/

/-- R240: a command completes from every state that meets the invariant. -/
theorem exec_completes (i : Instr) (hs : BlockInv s) : ∃ t, exec i s = .next t := by
  obtain ⟨h32, h64, -⟩ := hs
  rcases unit_cases i with hu | hu
  · obtain ⟨r, -, hr⟩ := exec_eq_perform32 hu
    obtain ⟨g', a, ha⟩ := exists_answers params32 r h32
    exact ⟨_, (hr s).trans (finish32_perform_iff.2 ⟨g', a, ha, rfl⟩)⟩
  · obtain ⟨r, -, hr⟩ := exec_eq_perform64 hu
    obtain ⟨g', a, ha⟩ := exists_answers params64 r h64
    exact ⟨_, (hr s).trans (finish64_perform_iff.2 ⟨g', a, ha, rfl⟩)⟩

/-- Settles O49: each command finds its own generator as it was before the other one, and at the end
each generator is as its own command left it. -/
theorem commandsToDifferentGeneratorsCommute :
    Obligations.CommandsToDifferentGeneratorsCommute := by
  unfold Obligations.CommandsToDifferentGeneratorsCommute
  intro i j s hs hij
  obtain ⟨a, hi⟩ := exec_completes i hs
  obtain ⟨b, hj⟩ := exec_completes j hs
  obtain ⟨ba, ri, hib, hbai, hra, hrba⟩ := exec_next_same_gen hi (exec_next_other_gen hij.symm hj)
  obtain ⟨ab, rj, hja, habj, hrb, hrab⟩ := exec_next_same_gen hj (exec_next_other_gen hij hi)
  have hgi : genOf i.unit ab = genOf i.unit ba :=
    (exec_next_other_gen hij.symm hja).trans hbai.symm
  have hgj : genOf j.unit ab = genOf j.unit ba :=
    habj.trans (exec_next_other_gen hij hib).symm
  obtain ⟨h32, h64⟩ := generators_eq_of_genOf hij hgi hgj
  exact ⟨a, ab, b, ba, ri, rj, hi, hja, hj, hib, h32, h64, hra ▸ hrab, hrb ▸ hrba⟩

end Sys2Proof.Proofs
end

/-! ## What a host may repeat (20_memory.md R66) -/

section

namespace Sys2Proof.Proofs

open Sys2Proof Sys2Proof.Machine Sys2Proof.Laws

variable {w n iw : Nat} {c : Params w n} {g g' : Gen w n iw} {a : Response}

/-- R148, R178: a `NEXT` on a seeded generator moves the index on, or from `N` to 1. -/
theorem Answers.next_idx_ne (hn1 : 1 < n) (hn : n < 2 ^ iw) (h : Answers c g .next g' a)
    (hseeded : g.seeded = true) : g'.idx ≠ g.idx := by
  obtain ⟨-, -, -, hnext, -⟩ := h.moves (Nat.zero_lt_of_lt hn1) hn rfl
  obtain ⟨-, hidx⟩ := hnext rfl
  intro heq
  have hmove := heq ▸ hidx hseeded
  split at hmove <;> omega

/-- R149: `STAT` answers the status and leaves both generators alone. -/
theorem exec_stat32 (s : State) : exec .stat32 s =
    .next { s with responses := successResponse (statusWord s.g32) :: s.responses } := rfl

/-- R179: `exec_stat32` for `G64`. -/
theorem exec_stat64 (s : State) : exec .stat64 s =
    .next { s with responses := successResponse (statusWord s.g64) :: s.responses } := rfl

/-- Settles O58: the first `STAT` leaves the second the same status, and a `NEXT` that is answered
moves the index. -/
theorem statRepeatsAndNextConsumes : Obligations.StatRepeatsAndNextConsumes := by
  unfold Obligations.StatRepeatsAndNextConsumes
  refine ⟨fun s => ⟨_, _, _, exec_stat32 s, exec_stat32 _, rfl⟩,
    fun s => ⟨_, _, _, exec_stat64 s, exec_stat64 _, rfl⟩, fun s hs hidx => ?_, fun s hs hidx => ?_⟩
  · obtain ⟨g', a, ha⟩ := exists_answers_next params32 fun _ => hidx
    exact ⟨_, finish32_perform_iff.2 ⟨g', a, ha, rfl⟩, ha.next_idx_ne (by decide) (by decide) hs⟩
  · obtain ⟨g', a, ha⟩ := exists_answers_next params64 fun _ => hidx
    exact ⟨_, finish64_perform_iff.2 ⟨g', a, ha, rfl⟩, ha.next_idx_ne (by decide) (by decide) hs⟩

end Sys2Proof.Proofs
end

/-! ## The decoder, the encoder and the opcode table (30_encoding.md R81 to R89) -/

section

namespace Sys2Proof.Proofs

open Sys2Proof Sys2Proof.Machine Sys2Proof.Laws Sys2Proof.Claims

/-! ### The operand in `DATA` (R84) -/

/-- Where `DATA` becomes too large for the operand of an operation, or for having none (R84). -/
def dataLimit (u : GenId) (o : Op) : Nat := if o.takesOperand then 2 ^ u.width else 1

theorem upperData_eq_zero_iff (d : BitVec 64) : upperData d = 0#32 ↔ d.toNat < 2 ^ 32 := by
  rw [← BitVec.toNat_inj, upperData_toNat]
  exact Nat.div_eq_zero_iff_lt (by decide)

theorem badData_iff (u : GenId) (o : Op) (d : BitVec 64) :
    badData u o d ↔ dataLimit u o ≤ d.toNat := by
  cases ho : o.takesOperand with
  | false => simp [badData, dataLimit, ho, ← BitVec.toNat_inj, Nat.one_le_iff_ne_zero]
  | true =>
    cases u with
    | g32 => simp [badData, dataLimit, ho, GenId.width, upperData_eq_zero_iff]
    | g64 => simpa [badData, dataLimit, ho, GenId.width] using d.isLt

/-- `DATA` is its upper half and a 32-bit operand. -/
theorem upperData_append_operand32 (d : BitVec 64) : upperData d ++ operand32 d = d :=
  BitVec.extractLsb'_append_extractLsb'

theorem and_upperMask_eq_zero_iff (d : BitVec 64) :
    d &&& 0xFFFFFFFF00000000#64 = 0#64 ↔ d.toNat < 2 ^ 32 := by
  have hand : d &&& (BitVec.allOnes 32 ++ 0#32) = upperData d ++ 0#32 := by
    conv_lhs => rw [← upperData_append_operand32 d, BitVec.and_append, BitVec.and_allOnes]
    rw [BitVec.and_zero]
  rw [← upperData_eq_zero_iff, show 0xFFFFFFFF00000000#64 = BitVec.allOnes 32 ++ 0#32 from rfl, hand,
    ← BitVec.toNat_inj, ← BitVec.toNat_inj, BitVec.toNat_append]
  simp [Nat.shiftLeft_eq]

/-! ### Commands as unit, operation and operand (R83) -/

@[simp] theorem instrOf_op (u : GenId) (o : Op) (d : BitVec 64) : (instrOf u o d).op = o := by
  cases u <;> cases o <;> rfl

theorem operand32_setWidth (v : Word32) : operand32 (v.setWidth 64) = v := by
  apply BitVec.eq_of_toNat_eq
  simpa [operand32] using v.isLt

theorem setWidth_operand32 {d : BitVec 64} (h : d.toNat < 2 ^ 32) :
    (operand32 d).setWidth 64 = d := by
  apply BitVec.eq_of_toNat_eq
  simp [operand32]
  omega

/-- A command is its unit, its operation and its operand. -/
theorem instrOf_dataWord (i : Instr) : instrOf i.unit i.op (dataWord i) = i := by
  cases i with
  | seed32 v => exact congrArg Instr.seed32 (operand32_setWidth v)
  | keypush32 v => exact congrArg Instr.keypush32 (operand32_setWidth v)
  | _ => rfl

/-- A command's operand fits its `DATA` (R84). -/
theorem dataWord_lt (i : Instr) : (dataWord i).toNat < dataLimit i.unit i.op := by
  cases i with
  | seed32 v | keypush32 v =>
    rw [dataWord, BitVec.toNat_setWidth_of_le (by decide)]
    exact v.isLt
  | seed64 v | keypush64 v => exact v.isLt
  | _ => decide

/-- Reading an operand out of a `DATA` that R84 admits drops no bit. -/
theorem dataWord_instrOf {u : GenId} {o : Op} {d : BitVec 64} (h : d.toNat < dataLimit u o) :
    dataWord (instrOf u o d) = d := by
  cases ho : o.takesOperand with
  | false =>
    have hd : d = 0 := by
      apply BitVec.eq_of_toNat_eq
      simpa [dataLimit, ho] using h
    cases u <;> cases o <;> first | exact hd.symm | cases ho
  | true =>
    cases u with
    | g64 => cases o <;> first | rfl | cases ho
    | g32 =>
      have hd : d.toNat < 2 ^ 32 := by simpa [dataLimit, ho, GenId.width] using h
      cases o <;> first | exact setWidth_operand32 hd | cases ho

theorem encode_instrOf {u : GenId} {o : Op} {d : BitVec 64} (h : d.toNat < dataLimit u o) :
    encode (instrOf u o d) = ⟨commandWord u o, d⟩ := by
  rw [encode, instrOf_unit, instrOf_op, dataWord_instrOf h]

/-- All a pair needs to decode, with the operand's width as a bound on a number. -/
theorem decode_eq_ok_iff (c : Command) (i : Instr) :
    decode c = .ok i ↔
      ∃ u o, c.cmd = commandWord u o ∧ c.data.toNat < dataLimit u o ∧ i = instrOf u o c.data := by
  simp only [decode_ok_iff, badData_iff, not_le]

/-- Settles O1: the encoder's word has the command's unit and operation, and its `DATA` is within
their limit. -/
theorem decodeInvertsEncode : Obligations.DecodeInvertsEncode := by
  unfold Obligations.DecodeInvertsEncode
  intro i
  exact (decode_eq_ok_iff _ i).2 ⟨i.unit, i.op, rfl, dataWord_lt i, (instrOf_dataWord i).symm⟩

/-- Settles O2: the decoder reads every bit of a pair it accepts. -/
theorem encodeInvertsDecode : Obligations.EncodeInvertsDecode := by
  unfold Obligations.EncodeInvertsDecode
  intro c i h
  obtain ⟨u, o, hcmd, hdata, rfl⟩ := (decode_eq_ok_iff c i).1 h
  rw [encode_instrOf hdata, ← hcmd]

/-! ### The opcode table (R83, R84) -/

/-- The table's row of a unit and an operation: every bit of `CMD` is fixed, and the bits of `DATA`
above the operand are zero. -/
def opcodeRow (u : GenId) (o : Op) : OpcodeRow where
  unit := u
  op := o
  mask := 0xFFFF
  pattern := commandWord u o
  dataZeroMask :=
    if o.takesOperand then
      match u with
      | .g32 => 0xFFFFFFFF00000000
      | .g64 => 0
    else 0xFFFFFFFFFFFFFFFF

theorem mem_opcodeTable_iff (r : OpcodeRow) : r ∈ opcodeTable ↔ r = opcodeRow r.unit r.op := by
  have hrows : ∀ r ∈ opcodeTable, r = opcodeRow r.unit r.op := by decide
  have hall : ∀ u o, opcodeRow u o ∈ opcodeTable := by
    intro u o
    cases u <;> cases o <;> decide
  exact ⟨hrows r, fun h => h ▸ hall _ _⟩

theorem opcodeRow_fits_iff (u : GenId) (o : Op) (c : Command) :
    (opcodeRow u o).fits c = true ↔ c.cmd = commandWord u o ∧ c.data.toNat < dataLimit u o := by
  have hcmd : c.cmd &&& 0xFFFF#16 = c.cmd := BitVec.and_allOnes
  have hdata : c.data &&& 0xFFFFFFFFFFFFFFFF#64 = c.data := BitVec.and_allOnes
  cases ho : o.takesOperand with
  | false =>
    simp [OpcodeRow.fits, opcodeRow, dataLimit, ho, hcmd, hdata, ← BitVec.toNat_inj (x := c.data)]
  | true =>
    cases u with
    | g32 => simp [OpcodeRow.fits, opcodeRow, dataLimit, ho, hcmd, GenId.width,
        and_upperMask_eq_zero_iff]
    | g64 => simpa [OpcodeRow.fits, opcodeRow, dataLimit, ho, hcmd, GenId.width] using
        fun _ => c.data.isLt

/-- Settles O3: a row and the decoder ask the same of a pair, its command word and the limit on
`DATA`. -/
theorem decodeAcceptsExactlyTheOpcodeTable : Obligations.DecodeAcceptsExactlyTheOpcodeTable := by
  unfold Obligations.DecodeAcceptsExactlyTheOpcodeTable
  intro c u o
  constructor
  · rintro ⟨i, hi, rfl, rfl⟩
    obtain ⟨u, o, hcmd, hdata, rfl⟩ := (decode_eq_ok_iff c i).1 hi
    rw [instrOf_unit, instrOf_op]
    exact ⟨opcodeRow u o, (mem_opcodeTable_iff _).2 rfl, rfl, rfl,
      (opcodeRow_fits_iff u o c).2 ⟨hcmd, hdata⟩⟩
  · rintro ⟨r, hr, rfl, rfl, hfits⟩
    rw [(mem_opcodeTable_iff r).1 hr, opcodeRow_fits_iff] at hfits
    exact ⟨_, (decode_eq_ok_iff c _).2 ⟨_, _, hfits.1, hfits.2, rfl⟩, instrOf_unit _ _ _,
      instrOf_op _ _ _⟩

/-! ### The checks as numbers (R81 to R84, R88) -/

theorem reservedBitsClear_iff (c : Command) :
    c.reservedBitsClear = true ↔ c.rsvField.toNat = 0 := by
  rw [rsvField_toNat]
  exact beq_iff_eq

theorem unitLegal_iff (c : Command) : c.unitLegal = true ↔ unitNumber c ≤ 1 := decide_eq_true_iff

theorem opLegal_iff (c : Command) : c.opLegal = true ↔ 1 ≤ opNumber c ∧ opNumber c ≤ 6 := by
  simp [Command.opLegal, opNumber]

theorem operandBitsClear_iff (c : Command) : c.operandBitsClear = true ↔
    (opNumber c = 1 ∨ opNumber c = 3 → unitNumber c ≠ 0 ∨ c.data.toNat < 2 ^ 32) ∧
      (¬ (opNumber c = 1 ∨ opNumber c = 3) → c.data.toNat = 0) := by
  rw [Command.operandBitsClear, opNumber, unitNumber]
  split
  · next h => simp [h]
  · next h => simp [h]

theorem takesOperand_iff (o : Op) :
    o.takesOperand = true ↔ (opCode o).toNat = 1 ∨ (opCode o).toNat = 3 := by
  cases o <;> decide

theorem opCode_range (o : Op) : 1 ≤ (opCode o).toNat ∧ (opCode o).toNat ≤ 6 := by
  cases o <;> decide

/-- The numbers that the checks speak of, in a legal command word. -/
theorem numbers_of_commandWord {c : Command} {u : GenId} {o : Op} (h : c.cmd = commandWord u o) :
    c.rsvField.toNat = 0 ∧ unitNumber c = (unitCode u).toNat ∧ opNumber c = (opCode o).toNat := by
  obtain ⟨cmd, d⟩ := c
  subst h
  refine ⟨by rw [commandWord_rsvField]; rfl, ?_, ?_⟩
  · rw [unitNumber, ← unitField_toNat, commandWord_unitField]
  · rw [opNumber, ← opField_toNat, commandWord_opField]

/-- Everything the decoder can answer, with the test that decides it as a check on numbers: the first
of R88's tests that the pair fails, or none. -/
theorem decode_cases_numbers (c : Command) :
    (decode c = .error .reservedBits ∧ c.rsvField.toNat ≠ 0) ∨
    (decode c = .error .reservedUnit ∧ c.rsvField.toNat = 0 ∧ 1 < unitNumber c) ∨
    (decode c = .error .reservedOp ∧ c.rsvField.toNat = 0 ∧ unitNumber c ≤ 1 ∧
      (opNumber c = 0 ∨ 6 < opNumber c)) ∨
    (c.rsvField.toNat = 0 ∧ unitNumber c ≤ 1 ∧ 1 ≤ opNumber c ∧ opNumber c ≤ 6 ∧
      ((decode c = .error .wideOperand ∧ unitNumber c = 0 ∧ (opNumber c = 1 ∨ opNumber c = 3) ∧
          2 ^ 32 ≤ c.data.toNat) ∨
        (decode c = .error .unexpectedData ∧ ¬ (opNumber c = 1 ∨ opNumber c = 3) ∧
          c.data.toNat ≠ 0) ∨
        ((∃ i, decode c = .ok i) ∧
          (opNumber c = 1 ∨ opNumber c = 3 → unitNumber c ≠ 0 ∨ c.data.toNat < 2 ^ 32) ∧
          (¬ (opNumber c = 1 ∨ opNumber c = 3) → c.data.toNat = 0)))) := by
  have hu : unitNumber c = c.unitField.toNat := (unitField_toNat c).symm
  have ho : opNumber c = c.opField.toNat := (opField_toNat c).symm
  rcases decode_cases c with ⟨hd, hr⟩ | ⟨hd, hr, hn⟩ | ⟨hd, hr, ⟨u, hs⟩, hn⟩ | ⟨u, o, hcmd, hcases⟩
  · exact .inl ⟨hd, fun h => hr (BitVec.eq_of_toNat_eq h)⟩
  · exact .inr (.inl ⟨hd, by simp [hr], hu ▸ genOfField_none.1 hn⟩)
  · have hunit : ¬ 1 < c.unitField.toNat := fun h => by simp [genOfField_none.2 h] at hs
    exact .inr (.inr (.inl ⟨hd, by simp [hr], hu ▸ not_lt.1 hunit, ho ▸ opOfField_none.1 hn⟩))
  · obtain ⟨hrsv, hunit, hop⟩ := numbers_of_commandWord hcmd
    have hu1 : (unitCode u).toNat ≤ 1 := by cases u <;> decide
    simp only [hrsv, hunit, hop, hu1, opCode_range o, ← takesOperand_iff, true_and]
    refine .inr (.inr (.inr ?_))
    rcases hcases with ⟨hd, ht, rfl, hdata⟩ | ⟨hd, ht, hdata⟩ | ⟨hd, hgood⟩
    · exact .inl ⟨hd, rfl, ht, not_lt.1 fun h => hdata ((upperData_eq_zero_iff _).2 h)⟩
    · exact .inr (.inl ⟨hd, by simp [ht], fun h => hdata (BitVec.eq_of_toNat_eq h)⟩)
    · rw [badData_iff, not_le] at hgood
      refine .inr (.inr ⟨⟨_, hd⟩, ?_⟩)
      cases ht : o.takesOperand with
      | false => simpa [dataLimit, ht] using hgood
      | true =>
        cases u with
        | g32 => simpa [dataLimit, ht, unitCode, GenId.width] using hgood
        | g64 => simp [unitCode]

/-- Settles O4: of everything the decoder can answer, a command is the answer that goes with all four
checks. -/
theorem legalPairsAreTheWellFormedOnes : Obligations.LegalPairsAreTheWellFormedOnes := by
  unfold Obligations.LegalPairsAreTheWellFormedOnes
  intro c
  simp only [Command.WellFormed, Bool.and_eq_true, reservedBitsClear_iff, unitLegal_iff, opLegal_iff,
    operandBitsClear_iff]
  rcases decode_cases_numbers c with ⟨hd, hr⟩ | ⟨hd, hr, hu⟩ | ⟨hd, hr, hu, ho⟩ |
    ⟨hr, hu, ho1, ho6, ⟨hd, h0, ho, hdata⟩ | ⟨hd, ho, hdata⟩ | ⟨⟨i, hd⟩, hdata⟩⟩
  all_goals
    simp only [hd, Except.ok.injEq, reduceCtorEq, exists_false, exists_eq', true_iff, false_iff]
    omega

/-- Settles O5: each answer of the decoder goes with its own test, and no two tests go together. -/
theorem illegalPairsAreNamedInOrder : Obligations.IllegalPairsAreNamedInOrder := by
  unfold Obligations.IllegalPairsAreNamedInOrder
  intro c
  have hzero : c.data ≠ 0 ↔ c.data.toNat ≠ 0 := not_congr BitVec.toNat_inj.symm
  simp only [← Bool.not_eq_true, reservedBitsClear_iff, unitLegal_iff, opLegal_iff,
    operandBitsClear_iff, hzero]
  rcases decode_cases_numbers c with ⟨hd, hr⟩ | ⟨hd, hr, hu⟩ | ⟨hd, hr, hu, ho⟩ |
    ⟨hr, hu, ho1, ho6, ⟨hd, h0, ho, hdata⟩ | ⟨hd, ho, hdata⟩ | ⟨⟨i, hd⟩, hdata⟩⟩
  all_goals
    simp only [hd, Except.error.injEq, reduceCtorEq, true_iff, false_iff, or_false, or_true]
    omega

/-- Settles O6: the decoder runs on the nine words. -/
theorem writtenOutWordsDecode : Obligations.WrittenOutWordsDecode := by
  unfold Obligations.WrittenOutWordsDecode
  decide

end Sys2Proof.Proofs
end

/-! ## What answers a pair (30_encoding.md R80, R86 to R88) -/

section

namespace Sys2Proof.Proofs

open Sys2Proof Sys2Proof.Machine Sys2Proof.Safety Sys2Proof.Laws Sys2Proof.Claims

variable {w n iw : Nat} {c : Params w n} {r : Request w} {g g' : Gen w n iw} {a : Response}

/-- Settles O40: what answers a pair is a response, and every response meets `ResponseInv`. -/
theorem everyCommandAnswersOnce : Obligations.EveryCommandAnswersOnce := by
  unfold Obligations.EveryCommandAnswersOnce
  intro s t c rest hp h
  obtain ⟨a, hpending, hresponses, hcases⟩ := step_command_next_cases hp h
  refine ⟨hpending, a, hresponses, ?_⟩
  rcases hcases with ⟨-, -, r, ha⟩ | ⟨-, -, r, ha⟩ | ⟨-, -, -, rfl⟩
  · exact ha.responseInv
  · exact ha.responseInv
  · exact responseInv_error _

/-- R86: only `NEXT` and `STAT` return data. -/
theorem Answers.rdata_eq_zero (h : Answers c g r g' a) (hnext : r.op ≠ some .next)
    (hstat : r.op ≠ some .stat) : a.rdata = 0 := by
  cases h with
  | nextUnseeded | nextWithin | nextUsedUp => exact absurd rfl hnext
  | stat => exact absurd rfl hstat
  | seed | keyclr | pushFull | push | weaveEmpty | weave | illegal => rfl

/-- R86: an output is zero-extended. -/
theorem resultWord_toNat_lt (hw : w ≤ 64) (y : BitVec w) : (resultWord y).toNat < 2 ^ w := by
  rw [resultWord, BitVec.toNat_setWidth_of_le hw]
  exact y.isLt

/-- R148, R178: what `NEXT` returns is a word of the generator. -/
theorem Answers.next_rdata_lt (hw : w ≤ 64) (h : Answers c g r g' a) (hr : r.op = some .next) :
    a.rdata.toNat < 2 ^ w := by
  cases h with
  | nextUnseeded => exact Nat.two_pow_pos w
  | nextWithin | nextUsedUp => exact resultWord_toNat_lt hw _
  | seed | keyclr | pushFull | push | weaveEmpty | weave | stat | illegal => cases hr

/-- Settles O41: a command's response is its request's answer. -/
theorem onlyNextAndStatReturnData : Obligations.OnlyNextAndStatReturnData := by
  unfold Obligations.OnlyNextAndStatReturnData
  intro i s t h
  rcases unit_cases i with hu | hu
  · obtain ⟨r, hop, hr⟩ := exec_eq_perform32 hu
    rw [hr, finish32_perform_iff] at h
    obtain ⟨g', a, ha, rfl⟩ := h
    exact ⟨a, rfl, fun hnext hstat => ha.rdata_eq_zero (by simpa [hop]) (by simpa [hop]),
      fun hi => ha.next_rdata_lt (by decide) (by rw [hop, hi]; rfl)⟩
  · obtain ⟨r, hop, hr⟩ := exec_eq_perform64 hu
    rw [hr, finish64_perform_iff] at h
    obtain ⟨g', a, ha, rfl⟩ := h
    refine ⟨a, rfl, fun hnext hstat => ha.rdata_eq_zero (by simpa [hop]) (by simpa [hop]), ?_⟩
    rintro rfl
    cases hu

/-- Settles O10: it is one of the cases of a step. -/
theorem stepRunsTheDecodedCommand : Obligations.StepRunsTheDecodedCommand := by
  unfold Obligations.StepRunsTheDecodedCommand
  intro s c rest i hp hd
  exact step_command hp hd

theorem decodeTableWord_eq_some_iff {nbits w : Nat} {i : Instr} :
    decodeTableWord nbits w = some i ↔ decode (commandOfWord nbits w) = .ok i := by
  rw [decodeTableWord]
  split
  · next j hd => simp [hd]
  · next why hd => simp [hd]

/-- Settles O11: the word's pair is at the head of `pending`, and the step takes it off again. -/
theorem fetchedWordIsTheOneThatRuns : Obligations.FetchedWordIsTheOneThatRuns := by
  unfold Obligations.FetchedWordIsTheOneThatRuns
  intro s nbits w i h
  exact step_command (offerEvent_pending _ s) (decodeTableWord_eq_some_iff.1 h)

end Sys2Proof.Proofs
end

/-! ## The assembler's lines and pseudo-instructions (30_encoding.md R91, R92) -/

section

namespace Sys2Proof.Proofs

open Sys2Proof Sys2Proof.Machine Sys2Proof.Laws Sys2Proof.Claims

/-! ### Lines -/

/-- The pair of a line: its command word, and its operand or 0 (R91). -/
def linePair (l : AsmLine) : Command := ⟨commandWord l.unit l.op, BitVec.ofNat 64 (l.operand.getD 0)⟩

theorem assembleLine_wellFormed {l : AsmLine} (h : l.WellFormed = true) :
    assembleLine l = some (linePair l) := if_pos h

theorem assembleLine_illFormed {l : AsmLine} (h : l.WellFormed = false) : assembleLine l = none := by
  simp [assembleLine, h]

/-- A line's operand fits its `DATA` exactly where the line is well-formed: R91's range is R84's. -/
theorem operand_lt {l : AsmLine} (h : l.WellFormed = true) :
    l.operand.getD 0 < dataLimit l.unit l.op := by
  obtain ⟨o, u, operand⟩ := l
  cases operand with
  | none =>
    unfold dataLimit
    split
    · exact Nat.two_pow_pos _
    · exact Nat.one_pos
  | some v =>
    obtain ⟨ho, hv⟩ : o.takesOperand = true ∧ v < 2 ^ u.width := by
      simpa [AsmLine.WellFormed, AsmLine.operandPresent, AsmLine.operandInRange] using h
    simpa [dataLimit, ho] using hv

theorem dataLimit_le (u : GenId) (o : Op) : dataLimit u o ≤ 2 ^ 64 := by
  cases u <;> cases o <;> decide

/-- Settles O7: a well-formed line's operand is within the limit that the decoder puts on `DATA`. -/
theorem assembledLineDecodesToItself : Obligations.AssembledLineDecodesToItself := by
  unfold Obligations.AssembledLineDecodesToItself
  refine fun l => ⟨assembleLine_illFormed, fun h => ?_⟩
  have hlt := operand_lt h
  have hdata : (linePair l).data.toNat = l.operand.getD 0 :=
    Nat.mod_eq_of_lt (hlt.trans_le (dataLimit_le _ _))
  exact ⟨linePair l, _, assembleLine_wellFormed h,
    (decode_eq_ok_iff _ _).2 ⟨l.unit, l.op, rfl, hdata ▸ hlt, rfl⟩, instrOf_unit _ _ _,
    instrOf_op _ _ _, hdata⟩

/-! ### Pseudo-instructions (R92) -/

/-- A source line with nothing to reject assembles to the pairs of the lines it stands for. -/
theorem assembleSource_wellFormed {s : Source} (hs : s.WellFormed = true)
    (hl : ∀ l ∈ expandSource s, l.WellFormed = true) :
    assembleSource s = some ((expandSource s).map linePair) := by
  rw [assembleSource, if_pos hs, List.map_congr_left fun l h => assembleLine_wellFormed (hl l h),
    allSome_map_some]

theorem wellFormed_noOperand {o : Op} {u : GenId} (h : o.takesOperand = false) :
    AsmLine.WellFormed ⟨o, u, none⟩ = true := by
  simp [AsmLine.WellFormed, AsmLine.operandPresent, AsmLine.operandInRange, h]

theorem wellFormed_operand {o : Op} {u : GenId} {v : Nat} (h : o.takesOperand = true)
    (hv : v < 2 ^ u.width) : AsmLine.WellFormed ⟨o, u, some v⟩ = true := by
  simp [AsmLine.WellFormed, AsmLine.operandPresent, AsmLine.operandInRange, h, hv]

theorem assembleSource_seedKey {u : GenId} {key : List Nat} (h : ∀ k ∈ key, k < 2 ^ u.width) :
    assembleSource (.seedKey u key) = some (⟨commandWord u .keyclr, 0⟩ ::
      (key.map (fun k => ⟨commandWord u .keypush, BitVec.ofNat 64 k⟩) ++
        [⟨commandWord u .seedarr, 0⟩])) := by
  rw [assembleSource_wellFormed (by simpa [Source.WellFormed] using h)]
  · simp [expandSource, linePair, Function.comp_def]
  · simp only [expandSource, List.mem_cons, List.mem_append, List.mem_map, List.not_mem_nil, or_false]
    rintro l (rfl | ⟨k, hk, rfl⟩ | rfl)
    · exact wellFormed_noOperand rfl
    · exact wellFormed_operand rfl (h k hk)
    · exact wellFormed_noOperand rfl

theorem assembleSource_seedDef (u : GenId) :
    assembleSource (.seedDef u) = some [⟨commandWord u .seed, 5489⟩] := by
  cases u <;> decide

theorem assembleSource_nextN {u : GenId} {n : Nat} (h : 1 ≤ n) :
    assembleSource (.nextN u n) = some (List.replicate n ⟨commandWord u .next, 0⟩) := by
  rw [assembleSource_wellFormed (s := .nextN u n) (decide_eq_true h)]
  · simp [expandSource, linePair]
  · intro l hl
    rw [List.eq_of_mem_replicate hl]
    exact wellFormed_noOperand rfl

/-- R147, R202: `SEEDARR32` with an empty key is refused. -/
theorem exec_seedarr32_empty {s : State} (h : s.g32.klen = 0) : exec .seedarr32 s =
    .next { s with
      g32 := recordError .invalidInput { s.g32 with seeded := false },
      responses := errorResponse .invalidInput :: s.responses } := by
  rw [exec_eq_finish32 rfl, result32, genSeedarr_empty h, finish32_raised]

/-- `exec_seedarr32_empty` for `G64` (R177). -/
theorem exec_seedarr64_empty {s : State} (h : s.g64.klen = 0) : exec .seedarr64 s =
    .next { s with
      g64 := recordError .invalidInput { s.g64 with seeded := false },
      responses := errorResponse .invalidInput :: s.responses } := by
  rw [exec_eq_finish64 rfl, result64, genSeedarr_empty h, finish64_raised]

/-- Settles O8: the lines of each expansion are well-formed, and `KEYCLR` leaves `SEEDARR` no key. -/
theorem pseudoInstructionsExpand : Obligations.PseudoInstructionsExpand := by
  unfold Obligations.PseudoInstructionsExpand
  refine ⟨fun u key => assembleSource_seedKey, assembleSource_seedDef,
    fun u n => assembleSource_nextN, fun u => rfl, fun s => ?_, fun s => ?_⟩
  · exact ⟨_, (execAll_cons (exec_keyclr32_held s)).trans (execAll_cons (exec_seedarr32_empty rfl)),
      rfl⟩
  · exact ⟨_, (execAll_cons (exec_keyclr64_held s)).trans (execAll_cons (exec_seedarr64_empty rfl)),
      rfl⟩

end Sys2Proof.Proofs
end

/-! ## The assembler's text (30_encoding.md R91, R92) -/

section

namespace Sys2Proof.Proofs

open Sys2Proof Sys2Proof.Machine Sys2Proof.Laws Sys2Proof.Claims

/-! ### Mnemonics -/

/-- Every stem and width is a mnemonic of R83 or R92. -/
theorem mem_mnemonics_of_stemTable {e : List Char × Stem} (he : e ∈ stemTable) (u : GenId) :
    (String.ofList (e.1 ++ widthSuffix u), e.2, u) ∈ mnemonics := by
  revert e
  cases u <;> decide

theorem mnemonic_of_parseMnemonic {w : List Char} {r : Stem × GenId} (h : parseMnemonic w = some r) :
    ∃ e ∈ mnemonics, w.map Char.toUpper = e.1.toList ∧ e.2 = r := by
  obtain ⟨e, he, hw, hr⟩ := parseMnemonic_some h
  refine ⟨_, mem_mnemonics_of_stemTable he r.2, ?_, by rw [hr]⟩
  rw [String.toList_ofList, ← hw]
  exact List.map_congr_left fun c _ => (upperCase_eq_toUpper c).symm

theorem parseMnemonic_congr_case {w w' : List Char} (h : w.map Char.toLower = w'.map Char.toLower) :
    parseMnemonic w = parseMnemonic w' := by
  have hup : ∀ v : List Char, v.map upperCase = (v.map Char.toLower).map upperCase := by
    intro v
    simp [upperCase_toLower]
  rw [parseMnemonic, parseMnemonic, hup w, hup w', h]

/-! ### Numbers -/

/-- Where a digit has a value: in the digits and letters, and below the base. -/
theorem digitValue_some {b d : Nat} {c : Char} (h : digitValue b c = some d) :
    d < b ∧ (('0' ≤ c ∧ c ≤ '9') ∨ 10 ≤ d ∧ ('a' ≤ c ∧ c ≤ 'f' ∨ 'A' ≤ c ∧ c ≤ 'F')) := by
  obtain ⟨hlt, hv⟩ := Option.ite_none_right_eq_some.1 h
  rw [Option.some.inj hv] at hlt
  refine ⟨hlt, ?_⟩
  by_cases hdigit : '0' ≤ c ∧ c ≤ '9'
  · exact .inl hdigit
  · rw [if_neg hdigit] at hv
    by_cases hlower : 'a' ≤ c ∧ c ≤ 'f'
    · have ha : 97 ≤ c.toNat := hlower.1
      rw [if_pos hlower, Option.some.injEq] at hv
      exact .inr ⟨by omega, .inl hlower⟩
    · rw [if_neg hlower] at hv
      by_cases hupper : 'A' ≤ c ∧ c ≤ 'F'
      · have hA : 65 ≤ c.toNat := hupper.1
        rw [if_pos hupper, Option.some.injEq] at hv
        exact .inr ⟨by omega, .inr hupper⟩
      · rw [if_neg hupper, Option.some.injEq] at hv
        omega

theorem isDigit_of_range {c : Char} (h : '0' ≤ c ∧ c ≤ '9') : c.isDigit = true := by
  rw [Char.isDigit, Bool.and_eq_true, decide_eq_true_iff, decide_eq_true_iff]
  exact h

theorem isDigit_of_digitValue {c : Char} {d : Nat} (h : digitValue 10 c = some d) :
    c.isDigit = true := by
  obtain ⟨hd, hdigit | ⟨hletter, -⟩⟩ := digitValue_some h
  · exact isDigit_of_range hdigit
  · omega

theorem isHexDigit_of_digitValue {c : Char} {d : Nat} (h : digitValue 16 c = some d) :
    isHexDigit c = true := by
  obtain ⟨-, hdigit | ⟨-, hletter⟩⟩ := digitValue_some h
  · simp [isHexDigit, isDigit_of_range hdigit]
  · simp [isHexDigit, hletter, or_assoc]

/-- A digit is no character that the assembler reads otherwise. -/
theorem isHexDigit_solid {c : Char} (h : isHexDigit c = true) :
    isBlank c = false ∧ c ≠ ',' ∧ c ≠ ';' := by
  have hne : ∀ b, isHexDigit b = false → c ≠ b := by
    rintro b hb rfl
    simp [h] at hb
  refine ⟨?_, hne ',' (by decide), hne ';' (by decide)⟩
  simp [isBlank, hne ' ' (by decide), hne '\t' (by decide), hne '\r' (by decide)]

theorem toDigits_isDigit (n : Nat) : ∀ c ∈ Nat.toDigits 10 n, c.isDigit = true := by
  intro c hc
  obtain ⟨d, hd⟩ := digitValue_of_digitsValue (digitsValue_toDigits (.inl rfl) n) hc
  exact isDigit_of_digitValue hd

theorem toDigits_isHexDigit (n : Nat) : ∀ c ∈ Nat.toDigits 16 n, isHexDigit c = true := by
  intro c hc
  obtain ⟨d, hd⟩ := digitValue_of_digitsValue (digitsValue_toDigits (.inr rfl) n) hc
  exact isHexDigit_of_digitValue hd

theorem parseNumber_hex {ds : List Char} (hne : ds ≠ []) :
    parseNumber ('0' :: 'x' :: ds) = digitsValue 16 ds := by
  cases ds with
  | nil => exact absurd rfl hne
  | cons c ds => rfl

theorem parseNumber_decimal {ds : List Char} (hne : ds ≠ []) (hx : 'x' ∉ ds) :
    parseNumber ds = digitsValue 10 ds := by
  unfold parseNumber
  split
  · exact absurd rfl hne
  · exact absurd (by simp) hx
  · exact absurd (by simp) hx
  · rfl

/-- R91: what is read as a number is decimal digits, or `0x` and hexadecimal digits. -/
theorem digits_of_parseNumber {t : List Char} {v : Nat} (h : parseNumber t = some v) :
    (t ≠ [] ∧ t.all Char.isDigit = true) ∨
      ∃ ds, ds ≠ [] ∧ t = '0' :: 'x' :: ds ∧ ds.all isHexDigit = true := by
  unfold parseNumber at h
  split at h
  · cases h
  · cases h
  · next ds hne =>
    refine .inr ⟨ds, fun hnil => hne (by rw [hnil]), rfl, List.all_eq_true.2 fun c hc => ?_⟩
    obtain ⟨d, hd⟩ := digitValue_of_digitsValue h hc
    exact isHexDigit_of_digitValue hd
  · next hne _ _ =>
    refine .inl ⟨hne, List.all_eq_true.2 fun c hc => ?_⟩
    obtain ⟨d, hd⟩ := digitValue_of_digitsValue h hc
    exact isDigit_of_digitValue hd

/-- A way to write numbers that the assembler reads back, in characters that end neither an operand
nor a line. -/
structure Writes (f : Nat → List Char) : Prop where
  reads : ∀ n, parseNumber (f n) = some n
  solid : ∀ n, ∀ c ∈ f n, isBlank c = false ∧ c ≠ ',' ∧ c ≠ ';'

/-- `0x` and the hexadecimal digits of a number (R91). -/
def hexText (n : Nat) : List Char := '0' :: 'x' :: Nat.toDigits 16 n

theorem writes_decimal : Writes (Nat.toDigits 10) where
  reads n := by
    have hx : 'x' ∉ Nat.toDigits 10 n := fun h => absurd (toDigits_isDigit n _ h) (by decide)
    rw [parseNumber_decimal Nat.toDigits_ne_nil hx, digitsValue_toDigits (.inl rfl)]
  solid n c hc := isHexDigit_solid (by simp [isHexDigit, toDigits_isDigit n c hc])

theorem writes_hex : Writes hexText where
  reads n := by
    rw [hexText, parseNumber_hex Nat.toDigits_ne_nil, digitsValue_toDigits (.inr rfl)]
  solid n := by
    simp only [hexText, List.forall_mem_cons]
    exact ⟨by decide, by decide, fun c hc => isHexDigit_solid (toDigits_isHexDigit n c hc)⟩

variable {f : Nat → List Char}

theorem Writes.ne_nil (hf : Writes f) (n : Nat) : f n ≠ [] := by
  intro h
  have := hf.reads n
  rw [h] at this
  cases this

/-- The numbers of a list as R92 writes operands, joined by a comma and a blank. -/
def joined (f : Nat → List Char) (ns : List Nat) : List Char := [',', ' '].intercalate (ns.map f)

theorem joined_nil (f : Nat → List Char) : joined f [] = [] := rfl

theorem joined_singleton (f : Nat → List Char) (n : Nat) : joined f [n] = f n := by
  simp [joined]

theorem joined_cons_cons (f : Nat → List Char) (n m : Nat) (ns : List Nat) :
    joined f (n :: m :: ns) = f n ++ [',', ' '] ++ joined f (m :: ns) :=
  List.intercalate_cons_cons

theorem joined_ne_semicolon (hf : Writes f) (ns : List Nat) : ∀ c ∈ joined f ns, c ≠ ';' := by
  induction ns with
  | nil => simp [joined_nil]
  | cons n ns ih =>
    have hn : ∀ c ∈ f n, c ≠ ';' := fun c hc => (hf.solid n c hc).2.2
    cases ns with
    | nil => simpa only [joined_singleton] using hn
    | cons m ns =>
      simp only [joined_cons_cons, List.forall_mem_append]
      exact ⟨⟨hn, by simp⟩, ih⟩

/-- Joined numbers end in the digits of the last. -/
theorem joined_eq_append (f : Nat → List Char) (n : Nat) (ns : List Nat) :
    ∃ init m, joined f (n :: ns) = init ++ f m := by
  induction ns generalizing n with
  | nil => exact ⟨[], n, joined_singleton f n⟩
  | cons m ns ih =>
    obtain ⟨init, k, hk⟩ := ih m
    exact ⟨f n ++ [',', ' '] ++ init, k, by simp only [joined_cons_cons, hk, List.append_assoc]⟩

theorem joined_ne_nil (hf : Writes f) (n : Nat) (ns : List Nat) : joined f (n :: ns) ≠ [] := by
  obtain ⟨init, m, hm⟩ := joined_eq_append f n ns
  rw [hm]
  exact List.append_ne_nil_of_right_ne_nil _ (hf.ne_nil m)

theorem joined_getLast? (hf : Writes f) (n : Nat) (ns : List Nat) (c : Char)
    (hc : (joined f (n :: ns)).getLast? = some c) : isBlank c = false := by
  obtain ⟨init, m, hm⟩ := joined_eq_append f n ns
  rw [hm, List.getLast?_append_of_ne_nil _ (hf.ne_nil m)] at hc
  exact (hf.solid m c (List.mem_of_getLast? hc)).1

theorem joined_head? (hf : Writes f) (n : Nat) (ns : List Nat) (c : Char)
    (hc : (joined f (n :: ns)).head? = some c) : isBlank c = false := by
  have hhead : (joined f (n :: ns)).head? = (f n).head? := by
    cases ns with
    | nil => rw [joined_singleton]
    | cons m ns =>
      rw [joined_cons_cons, List.append_assoc, List.head?_append_of_ne_nil _ (hf.ne_nil n)]
  exact (hf.solid n c (List.mem_of_mem_head? (hhead ▸ hc))).1

theorem trimBlanks_joined (hf : Writes f) (n : Nat) (ns : List Nat) :
    trimBlanks (joined f (n :: ns)) = joined f (n :: ns) :=
  trimBlanks_eq_self (joined_head? hf n ns) (joined_getLast? hf n ns)

theorem parseNumber_trimBlanks (hf : Writes f) (n : Nat) :
    parseNumber (trimBlanks (' ' :: f n)) = some n := by
  rw [trimBlanks_space, trimBlanks_solid fun c hc => (hf.solid n c hc).1, hf.reads]

theorem parseOperands_joined (hf : Writes f) (n : Nat) (ns : List Nat) :
    parseOperands (' ' :: joined f (n :: ns)) = some (n :: ns) := by
  have hcomma : ∀ x ∈ f n :: ns.map f, ',' ∉ x := by
    intro x hx hmem
    rw [← List.map_cons, List.mem_map] at hx
    obtain ⟨m, -, rfl⟩ := hx
    exact (hf.solid m _ hmem).2.1 rfl
  have hsplit : splitAtChar ',' (' ' :: joined f (n :: ns)) = (n :: ns).map (' ' :: f ·) := by
    have hs := splitAtChar_intercalate hcomma
    rw [← List.map_cons, ← joined] at hs
    simp [splitAtChar, hs]
  have hread : (fun piece => parseNumber (trimBlanks piece)) ∘ (' ' :: f ·) = (some <| id ·) :=
    funext (parseNumber_trimBlanks hf)
  rw [parseOperands, trimBlanks_space, trimBlanks_joined hf, if_neg (joined_ne_nil hf n ns), hsplit,
    List.map_map, hread, allSome_map_some, List.map_id]

/-! ### Lines -/

theorem takeWhile_append_of_noComment {t : List Char} (h : ∀ c ∈ t, c ≠ ';') (rest : List Char) :
    (t ++ rest).takeWhile (· != ';') = t ++ rest.takeWhile (· != ';') :=
  List.takeWhile_append_of_pos fun c hc => bne_iff_ne.2 (h c hc)

/-- R91: what follows a `;` is no part of the line. -/
theorem parseLine_comment {t : List Char} (h : ';' ∉ t) (c : List Char) :
    parseLine (t ++ ';' :: c) = parseLine t := by
  have hne : ∀ a ∈ t, a ≠ ';' := fun a ha he => h (he ▸ ha)
  have hcut : (t ++ ';' :: c).takeWhile (· != ';') = t.takeWhile (· != ';') := by
    simpa [takeWhile_append_of_noComment hne] using (takeWhile_append_of_noComment hne []).symm
  rw [parseLine, parseLine, hcut]

variable {w : List Char} {stem : Stem} {u : GenId}

/-- A line whose text, without its comment and the blanks at its ends, is a mnemonic and what the
operands are read from. -/
theorem parseLine_of_body {t tail : List Char} {ns : List Nat}
    (hbody : trimBlanks (t.takeWhile (· != ';')) = w ++ tail)
    (hw : parseMnemonic w = some (stem, u)) (htail : ∀ c, tail.head? = some c → isBlank c = true)
    (hops : parseOperands tail = some ns) :
    parseLine t = (makeSource stem u ns).map (fun s => [s]) := by
  obtain ⟨hne, hsolid⟩ := parseMnemonic_word hw
  have hword : ∀ c ∈ w, (!isBlank c) = true := fun c hc => by simp [(hsolid c hc).1]
  obtain ⟨htake, hdrop⟩ : tail.takeWhile (fun c => !isBlank c) = [] ∧
      tail.dropWhile (fun c => !isBlank c) = tail := by
    cases tail with
    | nil => exact ⟨rfl, rfl⟩
    | cons c tail => simp [htail c rfl]
  rw [parseLine, hbody]
  simp only [List.append_eq_nil_iff, hne, false_and, if_false, List.takeWhile_append_of_pos hword,
    List.dropWhile_append_of_pos hword, htake, hdrop, List.append_nil, hw, hops]

/-- A blank at the end of a word is dropped. -/
theorem trimBlanks_solid_space {t : List Char} (h : ∀ c ∈ t, isBlank c = false) :
    trimBlanks (t ++ [' ']) = t := by
  cases t with
  | nil => rfl
  | cons c t =>
    have hfront : (c :: t ++ [' ']).dropWhile isBlank = c :: t ++ [' '] := by simp [h c]
    have hself := trimBlanks_solid h
    rw [trimBlanks, List.dropWhile_cons_of_neg (by simp [h c])] at hself
    rw [trimBlanks, hfront, List.reverse_append]
    exact hself

/-- R91, R92: a mnemonic alone. -/
theorem parseLine_mnemonic (hw : parseMnemonic w = some (stem, u)) :
    parseLine w = (makeSource stem u []).map (fun s => [s]) := by
  obtain ⟨-, hsolid⟩ := parseMnemonic_word hw
  refine parseLine_of_body (tail := []) ?_ hw (by simp) rfl
  rw [List.append_nil, List.takeWhile_eq_self_iff.2 fun c hc => bne_iff_ne.2 (hsolid c hc).2,
    trimBlanks_solid fun c hc => (hsolid c hc).1]

/-- R91, R92: a mnemonic, a blank and some operands. -/
theorem parseLine_operands (hw : parseMnemonic w = some (stem, u)) (hf : Writes f) (ns : List Nat) :
    parseLine (w ++ ' ' :: joined f ns) = (makeSource stem u ns).map (fun s => [s]) := by
  obtain ⟨hne, hsolid⟩ := parseMnemonic_word hw
  have hcut : (w ++ ' ' :: joined f ns).takeWhile (· != ';') = w ++ ' ' :: joined f ns := by
    refine List.takeWhile_eq_self_iff.2 fun c hc => bne_iff_ne.2 ?_
    rcases List.mem_append.1 hc with hc | hc
    · exact (hsolid c hc).2
    · rcases List.mem_cons.1 hc with rfl | hc
      · decide
      · exact joined_ne_semicolon hf ns c hc
  cases ns with
  | nil =>
    refine parseLine_of_body (tail := []) ?_ hw (by simp) rfl
    rw [hcut, List.append_nil]
    exact trimBlanks_solid_space fun c hc => (hsolid c hc).1
  | cons n ns =>
    refine parseLine_of_body (tail := ' ' :: joined f (n :: ns)) ?_ hw ?_ (parseOperands_joined hf n ns)
    · rw [hcut]
      refine trimBlanks_eq_self (fun c hc => ?_) (fun c hc => ?_)
      · rw [List.head?_append_of_ne_nil _ hne] at hc
        exact (hsolid c (List.mem_of_mem_head? hc)).1
      · rw [List.append_cons, List.getLast?_append_of_ne_nil _ (joined_ne_nil hf n ns)] at hc
        exact joined_getLast? hf n ns c hc
    · rintro c ⟨⟩
      rfl

/-- R91: a mnemonic, a blank and one operand. -/
theorem parseLine_operand (hw : parseMnemonic w = some (stem, u)) (hf : Writes f) (n : Nat) :
    parseLine (w ++ ' ' :: f n) = (makeSource stem u [n]).map (fun s => [s]) :=
  joined_singleton f n ▸ parseLine_operands hw hf [n]

/-- Settles O9: the parts of a line are read one by one, and a command line is a mnemonic alone or with
one operand in either way of writing it. -/
theorem assemblerReadsTextAsWritten : Obligations.AssemblerReadsTextAsWritten := by
  unfold Obligations.AssemblerReadsTextAsWritten
  refine ⟨by decide, fun w r => mnemonic_of_parseMnemonic, fun w w' => parseMnemonic_congr_case,
    fun t c h => parseLine_comment h c, writes_decimal.reads, writes_hex.reads,
    fun t v => digits_of_parseNumber, fun w o u n hw => ⟨parseLine_mnemonic hw, ?_, ?_⟩⟩
  · exact parseLine_operand hw writes_decimal n
  · exact parseLine_operand hw writes_hex n

/-! ### Programs -/

/-- What source lines assemble to, one after the other. -/
def assembleSources (l : List Source) : Option (List Command) :=
  (allSome (l.map assembleSource)).map List.flatten

theorem assembleSources_nil : assembleSources [] = some [] := rfl

theorem assembleSources_singleton (s : Source) : assembleSources [s] = assembleSource s := by
  rcases h : assembleSource s with _ | cs <;> simp [assembleSources, allSome, h]

theorem assembleSources_append (l m : List Source) :
    assembleSources (l ++ m) =
      (assembleSources l).bind fun a => (assembleSources m).map (a ++ ·) := by
  simp only [assembleSources, List.map_append, allSome_append]
  cases allSome (l.map assembleSource) <;> cases allSome (m.map assembleSource) <;> simp

theorem assembleText_eq (t : List Char) :
    assembleText t =
      (allSome ((splitAtChar '\n' t).map parseLine)).bind (assembleSources ·.flatten) := by
  rw [assembleText]
  split
  · next h => rw [h]; rfl
  · next lines h => rw [h]; rfl

/-- The text of one line assembles to what its source line does, or to nothing. -/
theorem assembleText_line {t : List Char} (h : '\n' ∉ t) :
    assembleText t = (parseLine t).bind assembleSources := by
  rw [assembleText_eq, splitAtChar_free h]
  rcases hp : parseLine t with _ | l <;> simp [allSome, hp]

/-- The text of a line and more lines assembles to the pairs of the line and then those of the rest. -/
theorem assembleText_cons {t : List Char} (h : '\n' ∉ t) (rest : List Char) :
    assembleText (t ++ '\n' :: rest) =
      (assembleText t).bind fun a => (assembleText rest).map (a ++ ·) := by
  rw [assembleText_line h, assembleText_eq, assembleText_eq, splitAtChar_sep h, List.map_cons]
  rcases parseLine t with _ | l
  · rfl
  · rw [allSome]
    rcases allSome ((splitAtChar '\n' rest).map parseLine) with _ | ls
    · simp
    · simp [assembleSources_append]

/-- Settles O60: a pseudo-instruction's operands are joined decimal numbers, and the assembler splits a
program at its first newline. -/
theorem assemblyProgramsReadLineByLine : Obligations.AssemblyProgramsReadLineByLine := by
  unfold Obligations.AssemblyProgramsReadLineByLine
  refine ⟨fun w u hw => parseLine_mnemonic hw, fun w u n hw => ?_,
    fun w u key hw => parseLine_operands hw writes_decimal key, fun t l ht hl => ?_,
    fun t ht hl => ?_, fun t ht hl => ?_, fun t rest ht => ?_⟩
  · exact parseLine_operand hw writes_decimal n
  · rw [assembleText_line ht, hl, Option.bind_some, assembleSources_singleton]
  · rw [assembleText_line ht, hl, Option.bind_some, assembleSources_nil]
  · rw [assembleText_line ht, hl, Option.bind_none]
  · rw [assembleText_cons ht]
    rcases assembleText t with _ | a
    · rfl
    · rcases assembleText rest with _ | b <;> rfl

end Sys2Proof.Proofs
end

/-! ## The seeding pipelines, and what a seeding depends on (40_seeding_pipelines.md) -/

section

namespace Sys2Proof.Proofs

open Sys2Proof Sys2Proof.Machine Sys2Proof.Laws

variable {w n iw : Nat} {c : Params w n} {g g' h h' : Gen w n iw} {a b : Response} {s t : State}

/-- A `G32` request that ends in a next state has been answered there. -/
theorem answers_of_finish32 {r : Request 32} (hr : finish32 (perform params32 r s.g32) s = .next t) :
    ∃ a, Answers params32 s.g32 r t.g32 a := by
  obtain ⟨g', a, ha, rfl⟩ := finish32_perform_iff.1 hr
  exact ⟨a, ha⟩

/-- `answers_of_finish32` for `G64`. -/
theorem answers_of_finish64 {r : Request 64} (hr : finish64 (perform params64 r s.g64) s = .next t) :
    ∃ a, Answers params64 s.g64 r t.g64 a := by
  obtain ⟨g', a, ha, rfl⟩ := finish64_perform_iff.1 hr
  exact ⟨a, ha⟩

/-- R119: the seed alone decides what a `SEED` leaves in the array and the index. -/
theorem Answers.seed_forgets {v : BitVec w} (hg : Answers c g (.seed v) g' a)
    (hh : Answers c h (.seed v) h' b) : g'.mt = h'.mt ∧ g'.idx = h'.idx := by
  cases hg
  cases hh
  exact ⟨fill_forgets c v g.mt h.mt, rfl⟩

/-- R119, R237: the key words in use alone decide what a `SEEDARR` leaves in the array and the index;
the rest of the buffer, and its capacity, may differ. -/
theorem Answers.seedarr_forgets (hn : 2 ≤ n) (hkey : g.klen ≠ 0) (hklen : g.klen = h.klen)
    (htake : g.key.take g.klen.toNat = h.key.take h.klen.toNat)
    (hg : Answers c g .seedarr g' a) (hh : Answers c h .seedarr h' b) :
    g'.mt = h'.mt ∧ g'.idx = h'.idx := by
  rw [← hklen] at htake
  cases hg with
  | weaveEmpty hempty => exact absurd hempty hkey
  | weave _ _ =>
    cases hh with
    | weaveEmpty hempty => exact absurd (hklen.trans hempty) hkey
    | weave _ _ =>
      have hmt : Machine.weave c g.key g.klen.toNat g.mt = Machine.weave c h.key g.klen.toNat h.mt :=
        weave_forgets c g.key h.key _ g.mt h.mt (by bv_omega) hn
          fun j hj => keyWord_of_take_eq htake hj
      exact ⟨hklen ▸ hmt, rfl⟩

/-- Settles O34: each seeding is answered from both states, and at either width the answers agree on
the array and the index. -/
theorem seedingForgetsThePast : Obligations.SeedingForgetsThePast := by
  unfold Obligations.SeedingForgetsThePast
  refine ⟨fun v s t s' t' hs ht => ?_, fun v s t s' t' hs ht => ?_,
    fun s t s' t' hkey hklen htake hs ht => ?_, fun s t s' t' hkey hklen htake hs ht => ?_⟩
  · obtain ⟨a, ha⟩ := answers_of_finish32 (r := .seed v) hs
    obtain ⟨b, hb⟩ := answers_of_finish32 (r := .seed v) ht
    exact ha.seed_forgets hb
  · obtain ⟨a, ha⟩ := answers_of_finish64 (r := .seed v) hs
    obtain ⟨b, hb⟩ := answers_of_finish64 (r := .seed v) ht
    exact ha.seed_forgets hb
  · obtain ⟨a, ha⟩ := answers_of_finish32 (r := .seedarr) hs
    obtain ⟨b, hb⟩ := answers_of_finish32 (r := .seedarr) ht
    exact ha.seedarr_forgets (by decide) hkey hklen htake hb
  · obtain ⟨a, ha⟩ := answers_of_finish64 (r := .seedarr) hs
    obtain ⟨b, hb⟩ := answers_of_finish64 (r := .seedarr) ht
    exact ha.seedarr_forgets (by decide) hkey hklen htake hb

/-- Settles O28: the pipelines are written in R110's, R112's and R113's terms over a constant set, and
each formula is what one of them says at R11's or R14's constants. -/
theorem pipelinesFollowTheirFormulas : Obligations.PipelinesFollowTheirFormulas := by
  unfold Obligations.PipelinesFollowTheirFormulas
  exact ⟨fun _ _ => rfl, fun _ _ => rfl, fun _ _ _ _ => rfl, fun _ _ _ _ => rfl,
    fun _ _ _ => rfl, fun _ _ _ => rfl⟩

end Sys2Proof.Proofs
end

/-! ## The decoding and the refusal of a `G32` pair (30_encoding.md R83, R84, 60_exceptions.md R204) -/

section

namespace Sys2Proof.Proofs

open Sys2Proof Sys2Proof.Machine Sys2Proof.Laws Sys2Proof.Claims

variable {u : GenId} {o : Op} {d : BitVec 64}

/-- A command word with a `DATA` that R84 admits decodes to its command. -/
theorem decode_commandWord (h : ¬ badData u o d) :
    decode ⟨commandWord u o, d⟩ = .ok (instrOf u o d) :=
  (decode_ok_iff _ _).2 ⟨u, o, rfl, h, rfl⟩

/-- A command word with another `DATA` does not decode. -/
theorem decode_commandWord_badData (h : badData u o d) :
    ∃ why, decode ⟨commandWord u o, d⟩ = .error why := by
  simp only [decode, commandWord_rsvField, commandWord_unitField, commandWord_opField,
    genOfField_unitCode, opOfField_opCode]
  rw [if_neg (by simp)]
  by_cases hwide : o.takesOperand = true ∧ u = .g32 ∧ upperData d ≠ 0
  · exact ⟨_, if_pos hwide⟩
  · exact ⟨_, (if_neg hwide).trans (if_pos (h.resolve_left hwide))⟩

/-- R84: the operand of a `G32` command is in the low half of `DATA`. -/
theorem not_badData_operand (ho : o.takesOperand = true) (h : d.toNat < 2 ^ 32) :
    ¬ badData .g32 o d := by
  rw [badData_iff, not_le]
  simpa [dataLimit, ho, GenId.width] using h

theorem operand32_eq_setWidth (d : BitVec 64) : operand32 d = d.setWidth 32 :=
  (BitVec.setWidth_eq_extractLsb' (by decide)).symm

/-- An error leaves the generator as it is but for its record (R206). -/
theorem recordError_eq_firstError {w n iw : Nat} (e : ErrorKind) (g : Gen w n iw) :
    recordError e g = { g with err := firstError g.err (errorCode e) } :=
  recordError_eq e g

/-- A `G32` pair whose `DATA` breaks R84 is an ILLEGAL_COMMAND of `G32`. -/
theorem refused32_of_badData (h : badData .g32 o d) : Refused32 ⟨commandWord .g32 o, d⟩ := by
  intro s rest hp
  obtain ⟨why, hd⟩ := decode_commandWord_badData h
  rw [step_illegal hp hd, raiseIllegal_g32 (by simp), recordError_eq_firstError]
  rfl

/-- A `G32` pair with an operand wider than 32 bits is refused. -/
theorem refused32_of_wide (ho : o.takesOperand = true) (h : 2 ^ 32 ≤ d.toNat) :
    Refused32 ⟨commandWord .g32 o, d⟩ :=
  refused32_of_badData ((badData_iff _ _ _).2 (by simpa [dataLimit, ho, GenId.width] using h))

/-- A `G32` pair with `DATA` where its operation has no operand is refused. -/
theorem refused32_of_data (ho : o.takesOperand = false) (h : d ≠ 0) :
    Refused32 ⟨commandWord .g32 o, d⟩ :=
  refused32_of_badData (.inr ⟨ho, h⟩)

end Sys2Proof.Proofs
end

/-! ## The tempering of `G32` (41_mt32_unit.md R142, R143) -/

section

namespace Sys2Proof.Proofs

open Sys2Proof Sys2Proof.Machine Sys2Proof.Claims

variable {w n : Nat}

/-- Words are told apart by a map whose bit at each place, together with the bits of lower rank,
decides the word's bit there. -/
theorem injective_of_bits {f : BitVec w → BitVec w} (rank : Nat → Nat)
    (hbit : ∀ x y i, i < w → (∀ j, rank j < rank i → x.getLsbD j = y.getLsbD j) →
      (f x).getLsbD i = (f y).getLsbD i → x.getLsbD i = y.getLsbD i) : Function.Injective f := by
  intro x y hxy
  have hall : ∀ r i, rank i = r → x.getLsbD i = y.getLsbD i := by
    intro r
    induction r using Nat.strong_induction_on with
    | _ r ih =>
      rintro i rfl
      rcases Nat.lt_or_ge i w with hi | hi
      · exact hbit x y i hi (fun j hj => ih _ hj j rfl) (by rw [hxy])
      · rw [BitVec.getLsbD_of_ge x i hi, BitVec.getLsbD_of_ge y i hi]
  exact BitVec.eq_of_getLsbD_eq fun i _ => hall _ i rfl

/-- R143: a step to the right is undone from the top bit down. -/
theorem temperRight_bijective {s : Nat} (hs : 0 < s) (mask : BitVec w) :
    Function.Bijective (temperRight s mask) := by
  refine Finite.injective_iff_bijective.1 (injective_of_bits (w - ·) fun x y i hi hlower hf => ?_)
  have hshift : x.getLsbD (s + i) = y.getLsbD (s + i) := hlower _ (by omega)
  simpa [temperRight, hshift] using hf

/-- R143: a step to the left is undone from the bottom bit up. -/
theorem temperLeft_bijective {s : Nat} (hs : 0 < s) (mask : BitVec w) :
    Function.Bijective (temperLeft s mask) := by
  refine Finite.injective_iff_bijective.1 (injective_of_bits id fun x y i hi hlower hf => ?_)
  by_cases his : i < s
  · simpa [temperLeft, his] using hf
  · have hshift : x.getLsbD (i - s) = y.getLsbD (i - s) := hlower _ (by simp; omega)
    simpa [temperLeft, his, hshift] using hf

/-- R143, R173: the tempering of either generator is a bijection, if its steps shift. -/
theorem temper_bijective (c : Params w n) (hu : 0 < c.shiftU) (hs : 0 < c.shiftS)
    (ht : 0 < c.shiftT) (hl : 0 < c.shiftL) : Function.Bijective (temper c) :=
  (temperRight_bijective hl _).comp <| (temperLeft_bijective ht _).comp <|
    (temperLeft_bijective hs _).comp (temperRight_bijective hu _)

/-- A step to the right without a mask (R10). -/
theorem temperRight_allOnes (s : Nat) (y : BitVec w) :
    temperRight s (BitVec.allOnes w) y = y ^^^ (y >>> s) := by
  rw [temperRight, BitVec.and_allOnes]

/-- R142: `G32`'s tempering, step by step; the masks of the first and the last are all ones. -/
theorem temper_params32 (y : Word32) : temper params32 y = tempered32 y := by
  have hmask : params32.maskD = BitVec.allOnes 32 := by decide
  rw [temper, hmask, temperRight_allOnes, temperRight_allOnes]
  rfl

/-- Settles O30: the model's four steps at R10's constants. -/
theorem temper32IsItsFourSteps : Obligations.Temper32IsItsFourSteps := by
  unfold Obligations.Temper32IsItsFourSteps
  exact temper_params32

/-- Settles O32: each step is a shift to one side, which the other side undoes. -/
theorem temper32IsABijection : Obligations.Temper32IsABijection := by
  unfold Obligations.Temper32IsABijection
  simp only [← temperRight_allOnes]
  exact ⟨by decide, temper_bijective params32 (by decide) (by decide) (by decide) (by decide),
    temperRight_bijective (by decide) _, temperLeft_bijective (by decide) _,
    temperLeft_bijective (by decide) _, temperRight_bijective (by decide) _⟩

end Sys2Proof.Proofs
end

/-! ## The status of a generator (10_state.md R39) -/

section

namespace Sys2Proof.Proofs

open Sys2Proof Sys2Proof.Machine Sys2Proof.Laws Sys2Proof.Claims

theorem extractLsb'_append_high {v w : Nat} (x : BitVec v) (y : BitVec w) :
    (x ++ y).extractLsb' w v = x := by
  rw [BitVec.extractLsb'_append_eq_of_le (Nat.le_refl w), Nat.sub_self, BitVec.extractLsb'_eq_self]

/-- R39: the fields of the status view and the gaps between them.  Each is read by dropping the fields
above it; it then stands on top of those below it. -/
theorem statusWord_fields {w n iw : Nat} (g : Gen w n iw) :
    (statusWord g).extractLsb' 0 10 = indexView g ∧
    (statusWord g).extractLsb' 10 6 = 0 ∧
    (statusWord g).extractLsb' 16 1 = BitVec.ofBool g.seeded ∧
    (statusWord g).extractLsb' 17 3 = 0 ∧
    (statusWord g).extractLsb' 20 4 = g.err ∧
    (statusWord g).extractLsb' 24 8 = 0 ∧
    (statusWord g).extractLsb' 32 16 = g.klen ∧
    (statusWord g).extractLsb' 48 16 = 0 := by
  unfold statusWord
  refine ⟨?_, ?_, ?_, ?_, ?_, ?_, ?_, ?_⟩
  · repeat rw [BitVec.extractLsb'_append_eq_of_add_le (by decide)]
    exact BitVec.extractLsb'_eq_self
  all_goals
    repeat rw [BitVec.extractLsb'_append_eq_of_add_le (by decide)]
    exact extractLsb'_append_high _ _

/-- Settles O21: the status word has the fields, and `STAT` answers it. -/
theorem stat32ReadsTheStatus : Obligations.Stat32ReadsTheStatus := by
  unfold Obligations.Stat32ReadsTheStatus
  exact ⟨by decide, fun d => refused32_of_data (o := .stat) rfl,
    fun s => ⟨statusWord s.g32, exec_stat32 s, statusWord_fields s.g32⟩⟩

end Sys2Proof.Proofs
end

/-! ## Filling the key buffer of `G32` (41_mt32_unit.md R145, R146) -/

section

namespace Sys2Proof.Proofs

open Sys2Proof Sys2Proof.Machine Sys2Proof.Laws Sys2Proof.Claims

/-- Settles O17: `KEYCLR` succeeds from every state. -/
theorem keyclr32EmptiesTheKey : Obligations.Keyclr32EmptiesTheKey := by
  unfold Obligations.Keyclr32EmptiesTheKey
  exact ⟨by decide, fun d => refused32_of_data (o := .keyclr) rfl, fun s => rfl⟩

/-- R146: a push onto a full buffer. -/
theorem exec_keypush32_full (v : Word32) {s : State} (h : s.g32.klen.toNat = s.g32.key.length) :
    exec (.keypush32 v) s = .next { s with
      g32 := { s.g32 with err := firstError s.g32.err 4 },
      responses := ⟨true, 4, 0⟩ :: s.responses } := by
  rw [exec_eq_finish32 rfl, result32, genKeypush_full h, finish32_raised, recordError_eq_firstError]
  rfl

/-- R146: a push with room. -/
theorem exec_keypush32_room (v : Word32) {s : State} (h : s.g32.klen.toNat < s.g32.key.length) :
    exec (.keypush32 v) s = .next { s with
      g32 := { s.g32 with key := s.g32.key.set s.g32.klen.toNat v, klen := s.g32.klen + 1 },
      responses := ⟨false, 0, 0⟩ :: s.responses } := by
  rw [exec_eq_finish32 rfl, result32, genKeypush_room h, finish32_done]
  rfl

/-- Settles O18: a full buffer overflows, and with room the word is written at the key length. -/
theorem keypush32AppendsOneWord : Obligations.Keypush32AppendsOneWord := by
  unfold Obligations.Keypush32AppendsOneWord
  refine ⟨fun d h => ?_, fun d => refused32_of_wide (o := .keypush) rfl,
    fun v s _ hcap => ⟨exec_keypush32_full v, fun hroom => ?_⟩⟩
  · rw [← operand32_eq_setWidth]
    exact decode_commandWord (u := .g32) (o := .keypush) (not_badData_operand rfl h)
  · exact ⟨_, _, exec_keypush32_room v hroom, toNat_add_one (by omega), List.length_set,
      List.getElem?_set_self hroom, fun j hj => List.getElem?_set_ne hj.symm⟩

end Sys2Proof.Proofs
end

/-! ## Seeding `G32` (41_mt32_unit.md R144, R147) -/

section

namespace Sys2Proof.Proofs

open Sys2Proof Sys2Proof.Machine Sys2Proof.Laws Sys2Proof.Claims

/-- R111: the model's fill at `G32`'s constants leaves `FILL_32`. -/
theorem filled32_fill (v : Word32) (mt : Vector Word32 624) : Filled32 v (fill params32 v mt) := by
  simp only [Filled32, getElem!_eq_readWord]
  exact fill_words params32 v mt (by decide)

/-- Settles O16: the fill is `FILL_32` whatever the array held. -/
theorem seed32FillsTheArrayAndSeeds : Obligations.Seed32FillsTheArrayAndSeeds := by
  unfold Obligations.Seed32FillsTheArrayAndSeeds
  refine ⟨fun d h => ?_, fun d => refused32_of_wide (o := .seed) rfl,
    fun v s => ⟨fill params32 v s.g32.mt, filled32_fill v s.g32.mt, rfl⟩⟩
  rw [← operand32_eq_setWidth]
  exact decode_commandWord (u := .g32) (o := .seed) (not_badData_operand rfl h)

theorem getElem!_eq_keyWord {w : Nat} (key : List (BitVec w)) (j : Nat) : key[j]! = keyWord key j := by
  rw [keyWord, List.getD_eq_getElem?_getD, List.getElem!_eq_getElem?_getD]
  rfl

/-- R114: the model's weave at `G32`'s constants leaves `WEAVE_32`, step `t` of its two phases writing
`weaveWord` `t`. -/
theorem woven32_weave (key : List Word32) {len : Nat} (hlen : 1 ≤ len) (mt : Vector Word32 624) :
    Woven32 key len (weave params32 key len mt) := by
  obtain ⟨hfirst, hwords⟩ := weave_words params32 (by decide) key len mt
  refine ⟨fill params32 params32.base mt, weaveWord params32 key len mt,
    filled32_fill params32.base mt, fun t _ => ?_, ?_, fun t h1 h2 => ?_⟩
  · simp only [getElem!_eq_readWord, getElem!_eq_keyWord]
    exact weaveWord_recurrence params32 (by decide) key len hlen mt t
  · rw [getElem!_eq_readWord]
    exact hfirst
  · rw [getElem!_eq_readWord]
    exact hwords t h1 h2

/-- R147: `SEEDARR32` with a key. -/
theorem exec_seedarr32_key {s : State} (h : s.g32.klen ≠ 0)
    (hfits : s.g32.klen.toNat ≤ s.g32.key.length) : exec .seedarr32 s = .next { s with
      g32 := seededWith (weave params32 s.g32.key s.g32.klen.toNat s.g32.mt) s.g32,
      responses := successResponse 0 :: s.responses } := by
  rw [exec_eq_finish32 rfl, result32, genSeedarr_key h hfits, finish32_done]

/-- Settles O19: an empty key is refused and unseeds, and any other is woven as R114 says. -/
theorem seedarr32WeavesTheKey : Obligations.Seedarr32WeavesTheKey := by
  unfold Obligations.Seedarr32WeavesTheKey
  refine ⟨by decide, fun d => refused32_of_data (o := .seedarr) rfl,
    fun s => ⟨fun hempty => ?_, fun hkey hfits => ?_⟩⟩
  · rw [exec_seedarr32_empty hempty, recordError_eq_firstError]
    rfl
  · exact ⟨_, woven32_weave s.g32.key (by bv_omega) s.g32.mt, exec_seedarr32_key hkey hfits⟩

end Sys2Proof.Proofs
end

/-! ## Emitting from `G32` (41_mt32_unit.md R140, R141, R148) -/

section

namespace Sys2Proof.Proofs

open Sys2Proof Sys2Proof.Machine Sys2Proof.Laws Sys2Proof.Claims

/-- R140, R141: the model's twist at `G32`'s constants makes the next batch in place. -/
theorem regenerated32_twist (mt : Vector Word32 624) : Regenerated32 mt (twist params32 mt) := by
  intro k hk
  simp only [getElem!_eq_readWord]
  exact twist_words params32 mt (by decide) (by decide) k hk

/-- The response to a `NEXT32` that emits word `k` of the batch `mt`. -/
def wordResponse32 (mt : Vector Word32 624) (k : Nat) : Response :=
  ⟨false, 0, (tempered32 mt[k]!).setWidth 64⟩

theorem successResponse_temper32 (mt : Vector Word32 624) (k : Nat) :
    successResponse (resultWord (temper params32 (readWord mt k))) = wordResponse32 mt k := by
  rw [temper_params32, ← getElem!_eq_readWord]
  rfl

/-- R148: `NEXT32` on an unseeded generator. -/
theorem exec_next32_unseeded {s : State} (h : s.g32.seeded = false) :
    exec .next32 s = .next { s with
      g32 := { s.g32 with err := firstError s.g32.err 2 },
      responses := ⟨true, 2, 0⟩ :: s.responses } := by
  rw [exec_eq_finish32 rfl, result32, genNext_unseeded h, finish32_raised, recordError_eq_firstError]
  rfl

/-- R148: `NEXT32` within the batch. -/
theorem exec_next32_within {s : State} (h : s.g32.seeded = true) (hidx : s.g32.idx.toNat < 624) :
    exec .next32 s = .next { s with
      g32 := { s.g32 with idx := s.g32.idx + 1 },
      responses := wordResponse32 s.g32.mt s.g32.idx.toNat :: s.responses } := by
  rw [exec_eq_finish32 rfl, result32, genNext_within h hidx, finish32_done, successResponse_temper32]

/-- R148: `NEXT32` on a batch that is used up. -/
theorem exec_next32_usedUp {s : State} (h : s.g32.seeded = true) (hidx : s.g32.idx = 624) :
    exec .next32 s = .next { s with
      g32 := { s.g32 with mt := twist params32 s.g32.mt, idx := 1 },
      responses := wordResponse32 (twist params32 s.g32.mt) 0 :: s.responses } := by
  rw [exec_eq_finish32 rfl, result32, genNext_usedUp h (by rw [hidx]; rfl), finish32_done,
    successResponse_temper32]

/-- Settles O20: the three cases of `NEXT32`. -/
theorem next32EmitsTheNextWord : Obligations.Next32EmitsTheNextWord := by
  unfold Obligations.Next32EmitsTheNextWord
  exact ⟨by decide, fun d => refused32_of_data (o := .next) rfl, fun s => ⟨exec_next32_unseeded,
    fun h hidx => ⟨_, toNat_add_one (by omega), exec_next32_within h hidx⟩,
    fun h hidx => ⟨_, regenerated32_twist s.g32.mt, exec_next32_usedUp h hidx⟩⟩⟩

/-- One command over and over, each time moving the state on from `after k` to `after (k + 1)`. -/
theorem execAll_replicate {i : Instr} {after : Nat → State} {cap : Nat}
    (hstep : ∀ k, k < cap → exec i (after k) = .next (after (k + 1))) (m k : Nat)
    (hfits : k + m ≤ cap) : execAll (List.replicate m i) (after k) = .next (after (k + m)) := by
  have h := execAll_map (f := fun _ : Unit => i) (held := fun done => after done.length)
    (fun done _ hlt => by simpa using hstep done.length hlt) (List.replicate m ())
    (List.replicate k ()) (by simpa using hfits)
  simpa using h

/-- The state `s` after `m` words of the batch `mt` were emitted from `G32`. -/
def emitted32 (s : State) (mt : Vector Word32 624) (m : Nat) : State :=
  { s with
    g32 := { s.g32 with mt := mt, idx := BitVec.ofNat 10 m },
    responses := ((List.range m).map (wordResponse32 mt)).reverse ++ s.responses }

/-- A `NEXT32` within the batch emits one word more. -/
theorem exec_next32_emitted {s : State} (h : s.g32.seeded = true) (mt : Vector Word32 624) {m : Nat}
    (hm : m < 624) : exec .next32 (emitted32 s mt m) = .next (emitted32 s mt (m + 1)) := by
  have hidx : (emitted32 s mt m).g32.idx.toNat = m := by
    simp only [emitted32, BitVec.toNat_ofNat]
    omega
  rw [exec_next32_within (s := emitted32 s mt m) h (hidx.trans_lt hm), hidx]
  simp [emitted32, List.range_succ, BitVec.ofNat_add]

/-- Settles O56: the first `NEXT32` makes the batch, and each one emits the next word of it. -/
theorem batchOfG32IsEmittedInOrder : Obligations.BatchOfG32IsEmittedInOrder := by
  unfold Obligations.BatchOfG32IsEmittedInOrder
  intro s hs hidx
  refine ⟨_, regenerated32_twist s.g32.mt, fun m h1 hm => ⟨BitVec.ofNat 10 m, ?_, ?_⟩⟩
  · rw [BitVec.toNat_ofNat]
    omega
  · obtain ⟨k, rfl⟩ := Nat.exists_eq_add_of_le' h1
    have hfirst : exec .next32 s = .next (emitted32 s (twist params32 s.g32.mt) 1) :=
      exec_next32_usedUp hs hidx
    rw [List.replicate_succ, execAll_cons hfirst, Nat.add_comm k 1]
    exact execAll_replicate (after := emitted32 s _) (fun j hj => exec_next32_emitted hs _ hj) k 1
      (by omega)

end Sys2Proof.Proofs
end

/-! ## The decoding, the refusal and the end of a `G64` command (30_encoding.md R83, R84, R86,
60_exceptions.md R204, R206) -/

section

namespace Sys2Proof.Proofs

open Sys2Proof Sys2Proof.Machine Sys2Proof.Laws Sys2Proof.Claims

variable {o : Op} {d : BitVec 64} {i : Instr} {g : Gen64} {s : State} {e : ErrorKind}

/-- R84: the operand of a `G64` command is the whole of `DATA`, so every `DATA` is legal. -/
theorem decode_g64_operand (ho : o.takesOperand = true) (d : BitVec 64) :
    decode ⟨commandWord .g64 o, d⟩ = .ok (instrOf .g64 o d) :=
  decode_commandWord (by simp [badData, ho])

/-- A `G64` pair with `DATA` where its operation has no operand is refused. -/
theorem refused64_of_data (ho : o.takesOperand = false) (h : d ≠ 0) :
    Refused64 ⟨commandWord .g64 o, d⟩ := by
  intro s rest hp
  obtain ⟨why, hd⟩ := decode_commandWord_badData (u := .g64) (.inr ⟨ho, h⟩)
  rw [step_illegal hp hd, raiseIllegal_g64 (by simp), recordError_eq_firstError]
  rfl

/-- A `G64` command that succeeds replaces its generator and answers. -/
theorem exec_g64_done (hu : i.unit = .g64) (h : result64 i s.g64 = .done g d) :
    exec i s = .next { s with g64 := g, responses := ⟨false, 0, d⟩ :: s.responses } := by
  rw [exec_eq_finish64 hu, h, finish64_done]
  rfl

/-- A `G64` command that raises an error records it if it is the first, and answers its code. -/
theorem exec_g64_raised (hu : i.unit = .g64) (h : result64 i s.g64 = .raised g e) :
    exec i s = .next { s with
      g64 := { g with err := firstError g.err (errorCode e) },
      responses := ⟨true, errorCode e, 0⟩ :: s.responses } := by
  rw [exec_eq_finish64 hu, h, finish64_raised, recordError_eq_firstError]
  rfl

end Sys2Proof.Proofs
end

/-! ## The tempering of `G64` (42_mt64_unit.md R172, R173) -/

section

namespace Sys2Proof.Proofs

open Sys2Proof Sys2Proof.Machine Sys2Proof.Claims

/-- Settles O31: the model's four steps at R13's constants; the mask of the last is all ones. -/
theorem temper64IsItsFourSteps : Obligations.Temper64IsItsFourSteps := by
  unfold Obligations.Temper64IsItsFourSteps
  intro y
  rw [temper, temperRight_allOnes]
  rfl

/-- Settles O33: each step is a shift to one side, which the other side undoes. -/
theorem temper64IsABijection : Obligations.Temper64IsABijection := by
  unfold Obligations.Temper64IsABijection
  simp only [← temperRight_allOnes]
  exact ⟨by decide, temper_bijective params64 (by decide) (by decide) (by decide) (by decide),
    temperRight_bijective (by decide) _, temperLeft_bijective (by decide) _,
    temperLeft_bijective (by decide) _, temperRight_bijective (by decide) _⟩

end Sys2Proof.Proofs
end

/-! ## The status and the key buffer of `G64` (42_mt64_unit.md R175, R176, R179) -/

section

namespace Sys2Proof.Proofs

open Sys2Proof Sys2Proof.Machine Sys2Proof.Laws Sys2Proof.Claims

/-- Settles O27: the status word has the fields, and `STAT` answers it. -/
theorem stat64ReadsTheStatus : Obligations.Stat64ReadsTheStatus := by
  unfold Obligations.Stat64ReadsTheStatus
  exact ⟨by decide, fun d => refused64_of_data (o := .stat) rfl,
    fun s => ⟨statusWord s.g64, exec_stat64 s, statusWord_fields s.g64⟩⟩

/-- Settles O23: `KEYCLR` succeeds from every state. -/
theorem keyclr64EmptiesTheKey : Obligations.Keyclr64EmptiesTheKey := by
  unfold Obligations.Keyclr64EmptiesTheKey
  exact ⟨by decide, fun d => refused64_of_data (o := .keyclr) rfl,
    fun s => exec_g64_done (i := .keyclr64) rfl rfl⟩

/-- Settles O24: a full buffer overflows, and with room the word is written at the key length. -/
theorem keypush64AppendsOneWord : Obligations.Keypush64AppendsOneWord := by
  unfold Obligations.Keypush64AppendsOneWord
  refine ⟨decode_g64_operand (o := .keypush) rfl,
    fun v s _ hcap => ⟨fun hfull => ?_, fun hroom => ?_⟩⟩
  · exact exec_g64_raised (i := .keypush64 v) rfl (genKeypush_full hfull)
  · exact ⟨_, _, exec_g64_done (i := .keypush64 v) rfl (genKeypush_room hroom),
      toNat_add_one (by omega), List.length_set, List.getElem?_set_self hroom,
      fun j hj => List.getElem?_set_ne hj.symm⟩

end Sys2Proof.Proofs
end

/-! ## Seeding `G64` (42_mt64_unit.md R174, R177) -/

section

namespace Sys2Proof.Proofs

open Sys2Proof Sys2Proof.Machine Sys2Proof.Laws Sys2Proof.Claims

/-- R111: the model's fill at `G64`'s constants leaves `FILL_64`. -/
theorem filled64_fill (v : Word64) (mt : Vector Word64 312) : Filled64 v (fill params64 v mt) := by
  simp only [Filled64, getElem!_eq_readWord]
  exact fill_words params64 v mt (by decide)

/-- Settles O22: the fill is `FILL_64` whatever the array held. -/
theorem seed64FillsTheArrayAndSeeds : Obligations.Seed64FillsTheArrayAndSeeds := by
  unfold Obligations.Seed64FillsTheArrayAndSeeds
  exact ⟨decode_g64_operand (o := .seed) rfl, fun v s =>
    ⟨fill params64 v s.g64.mt, filled64_fill v s.g64.mt, exec_g64_done (i := .seed64 v) rfl rfl⟩⟩

/-- R114: the model's weave at `G64`'s constants leaves `WEAVE_64`, step `t` of its two phases writing
`weaveWord` `t`. -/
theorem woven64_weave (key : List Word64) {len : Nat} (hlen : 1 ≤ len) (mt : Vector Word64 312) :
    Woven64 key len (weave params64 key len mt) := by
  simp only [Woven64, getElem!_eq_readWord, getElem!_eq_keyWord]
  exact ⟨fill params64 params64.base mt, weaveWord params64 key len mt,
    filled64_fill params64.base mt,
    fun t _ => weaveWord_recurrence params64 (by decide) key len hlen mt t,
    weave_words params64 (by decide) key len mt⟩

/-- Settles O25: an empty key is refused and unseeds, and any other is woven as R114 says. -/
theorem seedarr64WeavesTheKey : Obligations.Seedarr64WeavesTheKey := by
  unfold Obligations.Seedarr64WeavesTheKey
  refine ⟨by decide, fun d => refused64_of_data (o := .seedarr) rfl,
    fun s => ⟨fun hempty => ?_, fun hkey hfits => ?_⟩⟩
  · exact exec_g64_raised (i := .seedarr64) (g := { s.g64 with seeded := false }) rfl
      (genSeedarr_empty hempty)
  · exact ⟨_, woven64_weave s.g64.key (by bv_omega) s.g64.mt,
      exec_g64_done (i := .seedarr64) rfl (genSeedarr_key hkey hfits)⟩

end Sys2Proof.Proofs
end

/-! ## Emitting from `G64` (42_mt64_unit.md R170, R171, R178) -/

section

namespace Sys2Proof.Proofs

open Sys2Proof Sys2Proof.Machine Sys2Proof.Laws Sys2Proof.Claims

/-- R170, R171: the model's twist at `G64`'s constants makes the next batch in place. -/
theorem regenerated64_twist (mt : Vector Word64 312) : Regenerated64 mt (twist params64 mt) := by
  intro k hk
  simp only [getElem!_eq_readWord]
  exact twist_words params64 mt (by decide) (by decide) k hk

/-- The data of a `NEXT64` is the tempered word of the array (R178). -/
theorem resultWord_temper64 (mt : Vector Word64 312) (k : Nat) :
    resultWord (temper params64 (readWord mt k)) = (tempered64 mt[k]!).setWidth 64 := by
  rw [resultWord, temper64IsItsFourSteps, getElem!_eq_readWord]

/-- R178: `NEXT64` within the batch. -/
theorem exec_next64_within {s : State} (h : s.g64.seeded = true) (hidx : s.g64.idx.toNat < 312) :
    exec .next64 s = .next { s with
      g64 := { s.g64 with idx := s.g64.idx + 1 },
      responses := ⟨false, 0, (tempered64 s.g64.mt[s.g64.idx.toNat]!).setWidth 64⟩ ::
        s.responses } := by
  rw [← resultWord_temper64]
  exact exec_g64_done (i := .next64) rfl (genNext_within h hidx)

/-- R178: `NEXT64` on a batch that is used up. -/
theorem exec_next64_usedUp {s : State} (h : s.g64.seeded = true) (hidx : s.g64.idx = 312) :
    exec .next64 s = .next { s with
      g64 := { s.g64 with mt := twist params64 s.g64.mt, idx := 1 },
      responses := ⟨false, 0, (tempered64 (twist params64 s.g64.mt)[0]!).setWidth 64⟩ ::
        s.responses } := by
  rw [← resultWord_temper64]
  exact exec_g64_done (i := .next64) rfl (genNext_usedUp h (by rw [hidx]; rfl))

/-- Settles O26: the three cases of `NEXT64`. -/
theorem next64EmitsTheNextWord : Obligations.Next64EmitsTheNextWord := by
  unfold Obligations.Next64EmitsTheNextWord
  exact ⟨by decide, fun d => refused64_of_data (o := .next) rfl, fun s =>
    ⟨fun h => exec_g64_raised (i := .next64) rfl (genNext_unseeded h),
    fun h hidx => ⟨_, toNat_add_one (by omega), exec_next64_within h hidx⟩,
    fun h hidx => ⟨_, regenerated64_twist s.g64.mt, exec_next64_usedUp h hidx⟩⟩⟩

/-- The state `s` after `m` words of the batch `mt` were emitted from `G64`. -/
def emitted64 (s : State) (mt : Vector Word64 312) (m : Nat) : State :=
  { s with
    g64 := { s.g64 with mt := mt, idx := BitVec.ofNat 9 m },
    responses := ((List.range m).map (fun k =>
      ⟨false, 0, (tempered64 mt[k]!).setWidth 64⟩)).reverse ++ s.responses }

theorem emitted64_idx_toNat (s : State) (mt : Vector Word64 312) {m : Nat} (hm : m ≤ 312) :
    (emitted64 s mt m).g64.idx.toNat = m := by
  rw [emitted64, BitVec.toNat_ofNat]
  exact Nat.mod_eq_of_lt (by omega)

/-- A `NEXT64` within the batch emits one word more. -/
theorem exec_next64_emitted {s : State} (h : s.g64.seeded = true) (mt : Vector Word64 312) {m : Nat}
    (hm : m < 312) : exec .next64 (emitted64 s mt m) = .next (emitted64 s mt (m + 1)) := by
  have hidx := emitted64_idx_toNat s mt hm.le
  rw [exec_next64_within (s := emitted64 s mt m) h (hidx.trans_lt hm), hidx]
  simp [emitted64, List.range_succ, BitVec.ofNat_add]

/-- Settles O57: the first `NEXT64` makes the batch, and each one emits the next word of it. -/
theorem batchOfG64IsEmittedInOrder : Obligations.BatchOfG64IsEmittedInOrder := by
  unfold Obligations.BatchOfG64IsEmittedInOrder
  intro s hs hidx
  refine ⟨_, regenerated64_twist s.g64.mt, fun m h1 hm =>
    ⟨BitVec.ofNat 9 m, emitted64_idx_toNat s (twist params64 s.g64.mt) hm, ?_⟩⟩
  obtain ⟨k, rfl⟩ := Nat.exists_eq_add_of_le' h1
  have hfirst : exec .next64 s = .next (emitted64 s (twist params64 s.g64.mt) 1) :=
    exec_next64_usedUp hs hidx
  rw [List.replicate_succ, execAll_cons hfirst, Nat.add_comm k 1]
  exact execAll_replicate (after := emitted64 s _) (fun j hj => exec_next64_emitted hs _ hj) k 1
    (by omega)

end Sys2Proof.Proofs
end

/-! ## The refusals that write only the error record (60_exceptions.md R203 to R205, R216) -/

section

namespace Sys2Proof.Proofs

open Sys2Proof Sys2Proof.Machine Sys2Proof.Laws Sys2Proof.Claims

/-- Settles O13: being idle is one of the cases of a step. -/
theorem idleLosesNoState : Obligations.IdleLosesNoState := by
  unfold Obligations.IdleLosesNoState
  exact fun s hp => step_idle hp

/-- R178: `NEXT64` on an unseeded generator. -/
theorem exec_next64_unseeded {s : State} (h : s.g64.seeded = false) :
    exec .next64 s = .next { s with
      g64 := { s.g64 with err := firstError s.g64.err 2 },
      responses := ⟨true, 2, 0⟩ :: s.responses } :=
  exec_g64_raised (i := .next64) rfl (genNext_unseeded h)

/-- Settles O36: at either width it is the unseeded case of `NEXT`. -/
theorem unseededNextIsRefused : Obligations.UnseededNextIsRefused := by
  unfold Obligations.UnseededNextIsRefused
  exact ⟨fun s => exec_next32_unseeded, fun s => exec_next64_unseeded⟩

/-- R176: a push onto a full buffer of `G64`. -/
theorem exec_keypush64_full (v : Word64) {s : State} (h : s.g64.klen.toNat = s.g64.key.length) :
    exec (.keypush64 v) s = .next { s with
      g64 := { s.g64 with err := firstError s.g64.err 4 },
      responses := ⟨true, 4, 0⟩ :: s.responses } :=
  exec_g64_raised (i := .keypush64 v) rfl (genKeypush_full h)

/-- Settles O37: at either width it is the full case of `KEYPUSH`. -/
theorem fullKeyBufferRefusesAPush : Obligations.FullKeyBufferRefusesAPush := by
  unfold Obligations.FullKeyBufferRefusesAPush
  exact ⟨fun v s => exec_keypush32_full v, fun v s => exec_keypush64_full v⟩

/-- Settles O12: the refusal is by what `UNIT` names, `G32`, `G64` or neither. -/
theorem illegalPairIsRefusedAndRecorded : Obligations.IllegalPairIsRefusedAndRecorded := by
  unfold Obligations.IllegalPairIsRefusedAndRecorded
  intro s c rest why hp hd
  have hnum : unitNumber c = c.unitField.toNat := (unitField_toNat c).symm
  rw [step_illegal hp hd, hnum]
  rcases hu : genOfField c.unitField with _ | _ | _
  · have hreserved : 1 < c.unitField.toNat := genOfField_none.1 hu
    rw [raiseIllegal_reserved hu, if_neg (by omega), if_neg (by omega)]
    rfl
  · have hg32 : c.unitField.toNat = 0 := genOfField_g32.1 hu
    rw [raiseIllegal_g32 hu, recordError_eq_firstError, if_pos hg32, if_neg (by omega)]
    rfl
  · have hg64 : c.unitField.toNat = 1 := genOfField_g64.1 hu
    rw [raiseIllegal_g64 hu, recordError_eq_firstError, if_neg (by omega), if_pos hg64]
    rfl

end Sys2Proof.Proofs
end

/-! ## An error unseeds at most, and only a seeding seeds (60_exceptions.md R202, R206, R207) -/

section

namespace Sys2Proof.Proofs

open Sys2Proof Sys2Proof.Machine Sys2Proof.Laws Sys2Proof.Claims

variable {w n iw : Nat} {c : Params w n} {r : Request w} {g g' : Gen w n iw} {a : Response} {o : Op}

/-- What a command answered with the error `code` may have written of a generator (R206). -/
def WritesAsError (code : BitVec 4) (g g' : Gen w n iw) : Prop :=
  g' = { g with err := g'.err, seeded := g'.seeded } ∧
    (g'.seeded ≠ g.seeded → code = 1 ∧ g'.seeded = false)

theorem writesAsError_refl (code : BitVec 4) (g : Gen w n iw) : WritesAsError code g g :=
  ⟨rfl, (absurd rfl ·)⟩

theorem writesAsError_recordError (code : BitVec 4) (e : ErrorKind) (g : Gen w n iw) :
    WritesAsError code g (recordError e g) := by
  rw [recordError_eq]
  exact ⟨rfl, (absurd rfl ·)⟩

/-- R206: of the four errors, only the empty key's writes more than the record. -/
theorem Answers.writesAsError (h : Answers c g r g' a) (ha : a.errf = true) :
    WritesAsError a.code g g' := by
  cases h with
  | seed | keyclr | push | weave | nextWithin | nextUsedUp | stat => cases ha
  | pushFull | nextUnseeded | illegal => exact writesAsError_recordError _ _ g
  | weaveEmpty =>
    rw [recordError_eq]
    exact ⟨rfl, fun _ => ⟨rfl, rfl⟩⟩

/-- Settles O39: what answers the pair is an error, so the generator it names is written as an error
writes, and the other one is left alone. -/
theorem errorsArePrecise : Obligations.ErrorsArePrecise := by
  unfold Obligations.ErrorsArePrecise
  intro s t p rest a hp h hresp ha
  obtain ⟨b, hrest, hresp', hcase⟩ := step_command_next_cases hp h
  obtain rfl : a = b := (List.cons.inj (hresp.symm.trans hresp')).1
  have hwrites : WritesAsError a.code s.g32 t.g32 ∧ WritesAsError a.code s.g64 t.g64 := by
    obtain ⟨-, hg64, r, hr⟩ | ⟨-, hg32, r, hr⟩ | ⟨-, hg32, hg64, -⟩ := hcase
    · exact ⟨hr.writesAsError ha, hg64 ▸ writesAsError_refl ..⟩
    · exact ⟨hg32 ▸ writesAsError_refl .., hr.writesAsError ha⟩
    · exact ⟨hg32 ▸ writesAsError_refl .., hg64 ▸ writesAsError_refl ..⟩
  obtain ⟨⟨hkept32, hseeded32⟩, hkept64, hseeded64⟩ := hwrites
  exact ⟨hrest, hkept32, hkept64, hseeded32, hseeded64⟩

/-- R202: what seeds an unseeded generator is a `SEED`, or a `SEEDARR` with a key. -/
theorem Answers.seeding_of_seeds (h : Answers c g r g' a) (ho : r.op = some o)
    (hbefore : g.seeded = false) (hafter : g'.seeded = true) :
    o = .seed ∨ o = .seedarr ∧ g.klen ≠ 0 := by
  cases h with
  | seed => cases ho; exact .inl rfl
  | weave hkey => cases ho; exact .inr ⟨rfl, hkey⟩
  | keyclr | pushFull | push | weaveEmpty | nextUnseeded | nextWithin | nextUsedUp | stat
  | illegal => simp [hbefore] at hafter

/-- R36: after an error the record is not zero, so a later error is not recorded. -/
theorem recordError_absorbs_error (e : ErrorKind) (g : Gen w n iw) (code : BitVec 4) :
    { recordError e g with err := firstError (recordError e g).err code } = recordError e g := by
  have hrecord : (recordError e g).err ≠ 0 := by
    rw [recordError_err]
    split
    · exact (errorCode_range e).1
    · assumption
  rw [firstError, if_neg hrecord]

/-- Settles O35: an empty-key `SEEDARR` unseeds and leaves a record, so the `NEXT` after it is
refused and writes nothing; a command that seeds a generator is answered by it. -/
theorem emptyKeyLeavesNoUsableGenerator : Obligations.EmptyKeyLeavesNoUsableGenerator := by
  unfold Obligations.EmptyKeyLeavesNoUsableGenerator
  refine ⟨fun s hempty => ?_, fun s hempty => ?_, fun i s t hbefore h hafter => ?_,
    fun i s t hbefore h hafter => ?_⟩
  · exact ⟨_, _, exec_seedarr32_empty hempty, exec_next32_unseeded (recordError_seeded ..), rfl,
      rfl, recordError_eq_firstError .., recordError_absorbs_error ..⟩
  · exact ⟨_, _, exec_seedarr64_empty hempty, exec_next64_unseeded (recordError_seeded ..), rfl,
      rfl, recordError_eq_firstError .., recordError_absorbs_error ..⟩
  · obtain ⟨hu, -, r, a, ho, ha⟩ | ⟨-, hg32, -⟩ := exec_next_cases h
    · exact ⟨hu, ha.seeding_of_seeds ho hbefore hafter⟩
    · simp [hg32, hbefore] at hafter
  · obtain ⟨-, hg64, -⟩ | ⟨hu, -, r, a, ho, ha⟩ := exec_next_cases h
    · simp [hg64, hbefore] at hafter
    · exact ⟨hu, ha.seeding_of_seeds ho hbefore hafter⟩

end Sys2Proof.Proofs
end

/-! ## Every run completes (70_reset_and_hazards.md R240, R241) -/

section

namespace Sys2Proof.Proofs

open Sys2Proof Sys2Proof.Machine Sys2Proof.Safety Sys2Proof.Laws Sys2Proof.Claims

/-- Settles O44: of the four things a step can be, only a command could stop, and it completes. -/
theorem everyStepCompletes : Obligations.EveryStepCompletes := by
  unfold Obligations.EveryStepCompletes
  intro s hs
  obtain ⟨-, hstep⟩ | ⟨rest, -, hstep⟩ | ⟨p, rest, i, -, -, hstep⟩ | ⟨p, rest, why, -, -, hstep⟩ :=
    step_cases s
  · exact ⟨_, hstep⟩
  · exact ⟨_, hstep⟩
  · rw [hstep]
    exact exec_completes i (s := { s with pending := rest }) hs
  · exact ⟨_, hstep⟩

/-- The converse of `run_succ`: a step and a run after it are one run. -/
theorem run_succ_of_step {s u : State} (h : step s = .next u) (k : Nat) :
    Sys2Proof.core.run (k + 1) s = Sys2Proof.core.run k u := by
  have hcore : Sys2Proof.core.step s = .next u := h
  simp only [Host.Core.run, hcore]

/-- R241: a response given last is the last that the run shows. -/
theorem observation_responses {s t : State} {a : Response} (h : t.responses = a :: s.responses) :
    (observation t).1 = (observation s).1 ++ [a] := by
  simp [observation, h]

/-- Settles O45, by induction on the commands: the first step completes, takes the first command,
answers it and keeps the invariant, and the other commands are answered from there. -/
theorem everyRunAnswersEveryCommand : Obligations.EveryRunAnswersEveryCommand := by
  unfold Obligations.EveryRunAnswersEveryCommand
  intro ps
  induction ps with
  | nil => exact fun s hs hp => ⟨s, [], rfl, hp, hs, (List.append_nil _).symm, rfl⟩
  | cons p ps ih =>
    intro s hs hp
    obtain ⟨u, hstep⟩ := everyStepCompletes s hs
    obtain ⟨a, hrest, hresp, -⟩ := step_command_next_cases hp hstep
    obtain ⟨t, rs, hrun, hdone, ht, hobs, hcount⟩ := ih u (stepKeepsTheInvariant s u hs hstep) hrest
    refine ⟨t, a :: rs, (run_succ_of_step hstep _).trans hrun, hdone, ht, ?_, by simp [hcount]⟩
    rw [hobs, observation_responses hresp, List.append_assoc, List.singleton_append]

end Sys2Proof.Proofs
end

/-! ## Reset and boot (70_reset_and_hazards.md R230, R233) -/

section

namespace Sys2Proof.Proofs

open Sys2Proof Sys2Proof.Machine Sys2Proof.Laws Sys2Proof.Claims

variable {w n iw : Nat} {i : Instr} {s : State}

/-- Settles O14: both generators take their reset values, and only the capacities are the old ones. -/
theorem resetEventUnseedsBothGenerators : Obligations.ResetEventUnseedsBothGenerators := by
  unfold Obligations.ResetEventUnseedsBothGenerators
  intro s rest hp
  exact ⟨_, step_reset hp, by simp⟩

/-- Commands that all complete are followed by the rest of the list. -/
theorem execAll_append {l m : List Instr} {s t : State} (h : execAll l s = .next t) :
    execAll (l ++ m) s = execAll m t := by
  induction l generalizing s with
  | nil =>
    cases h
    rfl
  | cons i l ih =>
    obtain ⟨u, hi, hl⟩ := execAll_cons_next h
    rw [List.cons_append, execAll_cons hi, ih hl]

/-- R233: a `G32` command that seeds, and the first `NEXT32` after it. -/
theorem execAll_seeding_next32 {mt : Vector Word32 624} (hu : i.unit = .g32)
    (h : result32 i s.g32 = .done (seededWith mt s.g32) 0) :
    ∃ t y, execAll [i, .next32] s = .next t ∧
      t.responses = ⟨false, 0, y⟩ :: ⟨false, 0, 0⟩ :: s.responses ∧ t.g32.idx = 1 := by
  have hseed := exec_eq_finish32 hu s
  rw [h, finish32_done] at hseed
  exact ⟨_, _, (execAll_cons hseed).trans (execAll_cons (exec_next32_usedUp rfl rfl)), rfl, rfl⟩

/-- `execAll_seeding_next32` for `G64`. -/
theorem execAll_seeding_next64 {mt : Vector Word64 312} (hu : i.unit = .g64)
    (h : result64 i s.g64 = .done (seededWith mt s.g64) 0) :
    ∃ t y, execAll [i, .next64] s = .next t ∧
      t.responses = ⟨false, 0, y⟩ :: ⟨false, 0, 0⟩ :: s.responses ∧ t.g64.idx = 1 :=
  ⟨_, _, (execAll_cons (exec_g64_done hu h)).trans (execAll_cons (exec_next64_usedUp rfl rfl)), rfl,
    rfl⟩

/-- A generator with an empty key holds no word. -/
theorem holding_nil {g : Gen w n iw} (h : g.klen = 0) : holding [] g = g := by
  cases g
  cases h
  rfl

theorem held32_nil (h : s.g32.klen = 0) : held32 s [] = s := by
  simp [held32, holding_nil h]

theorem held64_nil (h : s.g64.klen = 0) : held64 s [] = s := by
  simp [held64, holding_nil h]

/-- A generator that holds a key of at least one word is seeded by `SEEDARR`. -/
theorem genSeedarr_holding (c : Params w n) {words : List (BitVec w)} {g : Gen w n iw}
    (hne : words ≠ []) (hfits : words.length ≤ g.key.length) (hcap : g.key.length ≤ 65535) :
    ∃ mt, genSeedarr c (holding words g) = .done (seededWith mt (holding words g)) 0 := by
  have hklen : (holding words g).klen.toNat = words.length := holding_klen_toNat (hfits.trans hcap)
  have hkey : (holding words g).klen ≠ 0 := fun hzero =>
    hne (List.length_eq_zero_iff.1 (by rw [← hklen, hzero]; rfl))
  exact ⟨_, genSeedarr_key hkey (by rwa [hklen, holding_key_length hfits])⟩

/-- R233: the pushes of a key, `SEEDARR32` and the first `NEXT32`. -/
theorem execAll_keyBoot32 {key : List Word32} (hempty : s.g32.klen = 0) (hne : key ≠ [])
    (hfits : key.length ≤ s.g32.key.length) (hcap : s.g32.key.length ≤ 65535) :
    ∃ t y, execAll (key.map Instr.keypush32 ++ [.seedarr32, .next32]) s = .next t ∧
      t.responses = ⟨false, 0, y⟩ :: (List.replicate (key.length + 1) ⟨false, 0, 0⟩ ++ s.responses) ∧
      t.g32.idx = 1 := by
  have hpush := execAll_keypush32 s key hfits hcap
  rw [held32_nil hempty] at hpush
  obtain ⟨mt, hseed⟩ := genSeedarr_holding params32 hne hfits hcap
  rw [execAll_append hpush]
  exact execAll_seeding_next32 (i := .seedarr32) (s := held32 s key) rfl hseed

/-- `execAll_keyBoot32` for `G64`. -/
theorem execAll_keyBoot64 {key : List Word64} (hempty : s.g64.klen = 0) (hne : key ≠ [])
    (hfits : key.length ≤ s.g64.key.length) (hcap : s.g64.key.length ≤ 65535) :
    ∃ t y, execAll (key.map Instr.keypush64 ++ [.seedarr64, .next64]) s = .next t ∧
      t.responses = ⟨false, 0, y⟩ :: (List.replicate (key.length + 1) ⟨false, 0, 0⟩ ++ s.responses) ∧
      t.g64.idx = 1 := by
  have hpush := execAll_keypush64 s key hfits hcap
  rw [held64_nil hempty] at hpush
  obtain ⟨mt, hseed⟩ := genSeedarr_holding params64 hne hfits hcap
  rw [execAll_append hpush]
  exact execAll_seeding_next64 (i := .seedarr64) (s := held64 s key) rfl hseed

/-- Settles O55: each sequence ends in a seeding at `N` and a `NEXT` that makes the first batch. -/
theorem bootSequencesSucceed : Obligations.BootSequencesSucceed := by
  unfold Obligations.BootSequencesSucceed
  exact ⟨fun v s => execAll_seeding_next32 (i := .seed32 v) rfl rfl,
    fun v s => execAll_seeding_next64 (i := .seed64 v) rfl rfl,
    fun key s => execAll_keyBoot32, fun key s => execAll_keyBoot64⟩

end Sys2Proof.Proofs
end
